-- ==== Sys2Proof/Word.lean ====
section
/-!
DEFINITION. The Word of the core (spec/00_scope.md R9, R10).

A Word is a signed INTEGER in a range, not a pattern of bits: the core never wraps, masks or shifts a Word (R9, R10,
R145). So a Word is carried as an `Int`, and being in the range is a predicate: `InWord`. Every exact result passes
`chk` (Machine/Alu.lean) before it is written, and the invariant `Inv` of Safety.lean says that every Word the state
holds is in the range. (DESIGN CHOICE, safe: assumption log, entry 12.)
-/

namespace Sys2Proof

/-- `WORD_MIN` of a word of `bits` bits: the least two's-complement value (R8, decision D1). -/
def wordMin (bits : Nat) : Int := -(2 ^ (bits - 1))

/-- `WORD_MAX` of a word of `bits` bits: the greatest two's-complement value (R8, decision D1). -/
def wordMax (bits : Nat) : Int := 2 ^ (bits - 1) - 1

/-- R9: the integer `v` is a Word of `bits` bits. -/
abbrev InWord (bits : Nat) (v : Int) : Prop := wordMin bits ≤ v ∧ v ≤ wordMax bits

end Sys2Proof
end

