-- ==== Sys2Proof/Config.lean ====
section
/-!
DEFINITION. The implementation parameters of spec/00_scope.md R8, as an argument of the model.

R8 fixes each parameter for this hardware or lets a model take it as an argument. The model takes every such row as an
argument: a `Config` is a constant of one core instance (it stands in `State.cfg`, and no step and no host operation
writes it), and `Config.standard` holds the values of this hardware. A statement about every state is therefore a
statement about both values of `NEG_ADDR_POLICY` and of `HIGH_DIGIT_POLICY`, as R59 and R82 ask, about every capacity,
about every negative halt sentinel (93_implementation_defined.md U4) and about every `WORD_BITS >= 64` (U2). (DESIGN CHOICE, safe: assumption log,
entry 1.)
-/

namespace Sys2Proof

/-- `NEG_ADDR_POLICY` (R8, R59, decision D3). -/
inductive NegAddrPolicy where
  /-- A negative effective address raises AddressFault: the default. -/
  | fault
  /-- A negative address is an ordinary key of M. -/
  | map
deriving DecidableEq, Repr

/-- `HIGH_DIGIT_POLICY` (R8, R82, decision D6). -/
inductive HighDigitPolicy where
  /-- Digits above digit 4 of an instruction word are not read: the default. -/
  | ignore
  /-- A non-zero digit above digit 4 is a DecodeError. -/
  | fault
deriving DecidableEq, Repr

/-- The parameters of one core instance (R8). A capacity of `none` is unbounded. -/
structure Config where
  /-- `WORD_BITS` -/
  wordBits : Nat
  /-- `HALT_SENTINEL`, the value `halt` writes to IP -/
  haltSentinel : Int
  /-- `NEG_ADDR_POLICY` -/
  negAddrPolicy : NegAddrPolicy
  /-- `HIGH_DIGIT_POLICY` -/
  highDigitPolicy : HighDigitPolicy
  /-- `MEM_CAPACITY`, a cap on the count of present addresses (R60) -/
  memCapacity : Option Nat
  /-- `IQ_CAPACITY` (R164, R213) -/
  iqCapacity : Option Nat
  /-- `OQ_CAPACITY` (R164) -/
  oqCapacity : Option Nat
deriving DecidableEq, Repr

/-- The parameter values of this hardware (R8). -/
def Config.standard : Config :=
  { wordBits := 64
    haltSentinel := -1
    negAddrPolicy := .fault
    highDigitPolicy := .ignore
    memCapacity := none
    iqCapacity := none
    oqCapacity := none }

/-- `WORD_MIN` of this instance. -/
def Config.wordMin (c : Config) : Int := Sys2Proof.wordMin c.wordBits

/-- `WORD_MAX` of this instance. -/
def Config.wordMax (c : Config) : Int := Sys2Proof.wordMax c.wordBits

/-- R9: `v` is a Word of this instance. -/
abbrev Config.IsWord (c : Config) (v : Int) : Prop := c.wordMin ≤ v ∧ v ≤ c.wordMax

/-- `IP_RESET` (R8, R272). -/
def ipReset : Int := 0

/-- `RB_RESET` (R8, decision D8). -/
def rbReset : Int := 0

end Sys2Proof
end

