-- ==== Sys2Proof/Syntax.lean ====
section
/-!
DEFINITION. The instructions (spec/30_encoding.md R84, R86) as syntax.

One constructor of `Instr` per row of spec/opcode_table.json. An instruction is what ONE instruction word says: an opcode
and three mode digits (R81). The decoder returns all three modes whatever the opcode is (R91), also those of parameters
the opcode does not have (R90), so every constructor holds three. The parameter words are not part of the instruction
word: a step reads them from memory one at a time (R113), so they are no fields of `Instr`; `Line` puts the two together.
-/

namespace Sys2Proof

/-- The three parameter modes (R12, R84). -/
inductive Mode where
  /-- Digit 0: the parameter word is the address of the operand. -/
  | position
  /-- Digit 1: the parameter word is the operand. -/
  | immediate
  /-- Digit 2: the parameter word plus RB is the address of the operand. -/
  | relative
deriving DecidableEq, Repr

/-- The ten instructions (R2, R86). `m1`, `m2`, `m3` are the mode digits of the instruction word. -/
inductive Instr where
  /-- Opcode 1: P3 <- P1 + P2 (R141). -/
  | add (m1 m2 m3 : Mode)
  /-- Opcode 2: P3 <- P1 * P2 (R142). -/
  | multiply (m1 m2 m3 : Mode)
  /-- Opcode 3: P1 <- pop(IQ) (R160). -/
  | readInput (m1 m2 m3 : Mode)
  /-- Opcode 4: push(OQ, P1) (R161). -/
  | writeOutput (m1 m2 m3 : Mode)
  /-- Opcode 5: if P1 != 0 then IP <- P2 (R180). -/
  | jumpIfTrue (m1 m2 m3 : Mode)
  /-- Opcode 6: if P1 = 0 then IP <- P2 (R181). -/
  | jumpIfFalse (m1 m2 m3 : Mode)
  /-- Opcode 7: P3 <- 1 if P1 < P2, else 0 (R143). -/
  | lessThan (m1 m2 m3 : Mode)
  /-- Opcode 8: P3 <- 1 if P1 = P2, else 0 (R144). -/
  | equals (m1 m2 m3 : Mode)
  /-- Opcode 9: RB <- RB + P1 (R200). -/
  | adjustRelativeBase (m1 m2 m3 : Mode)
  /-- Opcode 99: halt (R183). -/
  | halt (m1 m2 m3 : Mode)
deriving DecidableEq, Repr

/-- The parameter count `n` of an instruction (R80, R86). -/
def Instr.nparams : Instr → Nat
  | .add _ _ _ => 3
  | .multiply _ _ _ => 3
  | .readInput _ _ _ => 1
  | .writeOutput _ _ _ => 1
  | .jumpIfTrue _ _ _ => 2
  | .jumpIfFalse _ _ _ => 2
  | .lessThan _ _ _ => 3
  | .equals _ _ _ => 3
  | .adjustRelativeBase _ _ _ => 1
  | .halt _ _ _ => 0

/-- The length of an instruction in Words (R92). -/
def Instr.length (i : Instr) : Nat := 1 + i.nparams

/-- One instruction as it stands in memory: the instruction and its parameter words (R80). -/
structure Line where
  instr : Instr
  params : List Int
deriving DecidableEq, Repr

end Sys2Proof
end

