-- ==== Sys2Proof/WellFormed.lean ====
section
/-!
DEFINITION. What is well formed.

Every term of `Instr` is encodable (a destination in immediate mode is no decode error: R89), so nothing is asked of an
instruction word alone. What can be ill formed is a line (too few or too many parameter words for its opcode, R80; a
parameter that is no Word, R93), a program (an element that is no Word, more elements than MEM_CAPACITY: R212) and the
parameters themselves (R8).
-/

namespace Sys2Proof

/-- R8: what the parameter table asks of its own values: a width of at least 64 bits, and a halt sentinel that is a Word
below every valid address. -/
abbrev Config.Valid (c : Config) : Prop := 64 ≤ c.wordBits ∧ c.IsWord c.haltSentinel ∧ c.haltSentinel < 0

/-- R80, R93: a line has exactly its opcode's parameter words, and each is a Word. -/
abbrev Line.WellFormed (c : Config) (l : Line) : Prop :=
  l.params.length = l.instr.nparams ∧ ∀ p ∈ l.params, c.IsWord p

/-- R212: `construct` accepts the program. -/
abbrev Config.Accepts (c : Config) (program : List Int) : Prop :=
  (∀ v ∈ program, c.IsWord v) ∧ ∀ cap ∈ c.memCapacity, program.length ≤ cap

end Sys2Proof
end

