-- ==== Sys2Proof/Decode.lean ====
section
/-!
DEFINITION. The decoder and the encoder (spec/30_encoding.md R81 to R95).

The fields of an instruction word are decimal digits of its value (R81). `decode` is R91, a pure function of the word and
of `HIGH_DIGIT_POLICY`: total, and every word that is no instruction is rejected by the name of its cause. The encoder
`encode` is R96's `op + 100*m1 + 1000*m2 + 10000*m3`.
-/

namespace Sys2Proof

/-- The cause of a DecodeError (R91). -/
inductive DecodeErr where
  /-- The word is negative (R83). -/
  | negativeWord
  /-- A non-zero digit above digit 4, under `HIGH_DIGIT_POLICY = fault` (R82). -/
  | highDigits
  /-- `w mod 100` is none of the ten opcodes (R87). -/
  | badOpcode
  /-- Mode digit `k` (1, 2 or 3) is above 2 (R84). -/
  | badMode (k : Fin 4)
deriving DecidableEq, Repr

/-- R10: the `k`-th decimal digit of `w`, digit 0 the least significant. -/
def digit (w k : Nat) : Nat := w / 10 ^ k % 10

/-- R84: the mode a mode digit stands for, if it stands for one. -/
def modeOfDigit : Nat → Option Mode
  | 0 => some .position
  | 1 => some .immediate
  | 2 => some .relative
  | _ => none

/-- R84, read the other way: the digit of a mode. -/
def digitOfMode : Mode → Nat
  | .position => 0
  | .immediate => 1
  | .relative => 2

/-- R86, R87: the opcode map. -/
def instrOfOpcode : Nat → Option (Mode → Mode → Mode → Instr)
  | 1 => some .add
  | 2 => some .multiply
  | 3 => some .readInput
  | 4 => some .writeOutput
  | 5 => some .jumpIfTrue
  | 6 => some .jumpIfFalse
  | 7 => some .lessThan
  | 8 => some .equals
  | 9 => some .adjustRelativeBase
  | 99 => some .halt
  | _ => none

/-- R91 after the checks of sign and high digits: the opcode is checked first, then the modes 1, 2, 3. -/
def decodeDigits (w : Nat) : Except DecodeErr Instr :=
  match instrOfOpcode (w % 100) with
  | none => .error .badOpcode
  | some mk =>
    match modeOfDigit (digit w 2) with
    | none => .error (.badMode 1)
    | some m1 =>
      match modeOfDigit (digit w 3) with
      | none => .error (.badMode 2)
      | some m2 =>
        match modeOfDigit (digit w 4) with
        | none => .error (.badMode 3)
        | some m3 => .ok (mk m1 m2 m3)

/-- R91: the decoder. -/
def decode (policy : HighDigitPolicy) (w : Int) : Except DecodeErr Instr :=
  if w < 0 then .error .negativeWord
  else if policy = .fault ∧ 100000 ≤ w then .error .highDigits
  else decodeDigits w.toNat

/-- R86: the opcode of an instruction. -/
def opcodeOf : Instr → Nat
  | .add _ _ _ => 1
  | .multiply _ _ _ => 2
  | .readInput _ _ _ => 3
  | .writeOutput _ _ _ => 4
  | .jumpIfTrue _ _ _ => 5
  | .jumpIfFalse _ _ _ => 6
  | .lessThan _ _ _ => 7
  | .equals _ _ _ => 8
  | .adjustRelativeBase _ _ _ => 9
  | .halt _ _ _ => 99

/-- The three modes of an instruction, m1 first. -/
def modesOf : Instr → Mode × Mode × Mode
  | .add m1 m2 m3 => (m1, m2, m3)
  | .multiply m1 m2 m3 => (m1, m2, m3)
  | .readInput m1 m2 m3 => (m1, m2, m3)
  | .writeOutput m1 m2 m3 => (m1, m2, m3)
  | .jumpIfTrue m1 m2 m3 => (m1, m2, m3)
  | .jumpIfFalse m1 m2 m3 => (m1, m2, m3)
  | .lessThan m1 m2 m3 => (m1, m2, m3)
  | .equals m1 m2 m3 => (m1, m2, m3)
  | .adjustRelativeBase m1 m2 m3 => (m1, m2, m3)
  | .halt m1 m2 m3 => (m1, m2, m3)

/-- R94, R96: the instruction word of an instruction: `op + 100*m1 + 1000*m2 + 10000*m3`. -/
def encode (i : Instr) : Int :=
  Int.ofNat (opcodeOf i + 100 * digitOfMode (modesOf i).1 + 1000 * digitOfMode (modesOf i).2.1
    + 10000 * digitOfMode (modesOf i).2.2)

/-- R80: the Words of a line, as they stand at consecutive addresses. -/
def encodeLine (l : Line) : List Int := encode l.instr :: l.params

/-- R80, R92: the line at the head of a list of Words, and the Words after it; `none` where the first word does not decode
or the list ends before the last parameter. (A step never meets such an end: an absent address reads 0.) -/
def decodeLine (policy : HighDigitPolicy) : List Int → Option (Line × List Int)
  | [] => none
  | w :: rest =>
    match decode policy w with
    | .error _ => none
    | .ok i =>
      if rest.length < i.nparams then none
      else some (⟨i, rest.take i.nparams⟩, rest.drop i.nparams)

/-- The Word whose two's-complement pattern of `bits` bits is the low bits of `n` (decision D1). DEDUCED, assumption log,
entry 2: the spec gives a Word no layout in bits, and no instruction can observe one (R56). -/
def wordOfBits (bits n : Nat) : Int :=
  if n % 2 ^ bits < 2 ^ (bits - 1) then Int.ofNat (n % 2 ^ bits)
  else Int.ofNat (n % 2 ^ bits) - Int.ofNat (2 ^ bits)

/-- The four Words (the longest instruction, R8 `MAX_INSN_WORDS`) whose bits are `w`, the first Word in the low bits. The
bits of `w` at `nbits` and above count as 0. -/
def tableWords (bits nbits w : Nat) : List Int :=
  [wordOfBits bits (w % 2 ^ nbits),
   wordOfBits bits (w % 2 ^ nbits / 2 ^ bits),
   wordOfBits bits (w % 2 ^ nbits / 2 ^ (2 * bits)),
   wordOfBits bits (w % 2 ^ nbits / 2 ^ (3 * bits))]

/-- What this hardware's decoder reads from an instruction whose bits are `w`: the instruction word is the first Word, and
the parameter words, which stand above it, do not take part in decoding (R91, R93). -/
def decodeTableWord (nbits w : Nat) : Option Instr :=
  match decode Config.standard.highDigitPolicy
      (wordOfBits Config.standard.wordBits (w % 2 ^ nbits)) with
  | .ok i => some i
  | .error _ => none

end Sys2Proof
end

