-- ==== Sys2Proof/Machine/State.lean ====
section
/-!
DEFINITION. The state of one core instance (spec/10_state.md R20 to R43), and the reasons a step could stop.

R20: the architectural state is `{ IP, RB, M, IQ, OQ, STATUS, FR }`. `State` holds these seven and `cfg`, the instance's
implementation parameters (R8), which nothing writes. State is plain data. Every Word is an `Int` (Word.lean).
-/

namespace Sys2Proof.Machine

/-- The seven kinds of fault a core raises (R240). They are NOT ends of the model's run: R248 describes the fault's entry
(STATE, FAULT_CODE and FR are written), so the model takes it, as a next state. -/
inductive FaultKind where
  /-- Code 1: the instruction word does not decode (R241). -/
  | decodeError
  /-- Code 2: a store through an immediate-mode destination (R242). -/
  | operandError
  /-- Code 3: a taken jump to a negative target (R243). -/
  | outOfBoundsError
  /-- Code 4: `read_input` with IQ empty (R244). -/
  | starvationError
  /-- Code 5: an exact value outside the Word range (R245). -/
  | overflowFault
  /-- Code 6: a negative effective address, under `NEG_ADDR_POLICY = fault` (R246). -/
  | addressFault
  /-- Code 7: a finite MEM_CAPACITY or OQ_CAPACITY is exhausted (R247). -/
  | capacityFault
deriving DecidableEq, Repr

/-- STATUS.STATE (R28, R29). -/
inductive RunState where
  | running
  | halted
  | faulted
deriving DecidableEq, Repr

/-- STATUS.LAST_EXIT (R28, R31). -/
inductive LastExit where
  /-- 0: no command completed since construction. -/
  | noCommand
  /-- 1: the core was or became halted. -/
  | halted
  /-- 2: `run_while_input` stopped before a `read_input` with IQ empty. -/
  | needInput
  /-- 3: `run_until_output` returned a value. -/
  | output
  /-- 4: a fault was raised or re-reported. -/
  | fault
  /-- 5: a `step` completed an instruction without halting or faulting. -/
  | stepped
deriving DecidableEq, Repr

/-- The commands that keep the core busy until they return (R32, R210, R216 to R219). -/
inductive Command where
  | step
  | runToEnd
  | runWhileInput
  | runUntilOutput
deriving DecidableEq, Repr

/-- STATUS (R28), by its fields; `Status.word` (Flags.lean) is the 16-bit register as the host reads it. The reserved bits
are hardwired 0 and the reserved values are never produced, so they have no field. FAULT_CODE is 0 for `none`. BUSY is 1
where `busy` names a command: the one that "BUSY reports" (R32), which the core runs until that command returns.
(DESIGN CHOICE, safe: assumption log, entry 6.) -/
structure Status where
  state : RunState
  faultCode : Option FaultKind
  lastExit : LastExit
  busy : Option Command
deriving DecidableEq, Repr

/-- FR, the fault record (R33). -/
structure FaultRecord where
  faultIp : Int
  faultWord : Int
  faultParam : Fin 4
  faultValue : Int
deriving DecidableEq, Repr

/-- M, a finite partial map from address to Word (R34), held so that equal maps are equal data (`Memory.wf`, Ops.lean):
`cells` lists the addresses that hold a Word other than 0, with their Words, addresses rising; `zeros` lists, rising, the
addresses that are present and hold 0. An address on neither list is absent, and reads 0. `zeros` is seen by nothing but
the MEM_CAPACITY accounting (R34, R60). Addresses are integers: under `NEG_ADDR_POLICY = map` a key may be negative.
(DESIGN CHOICE, safe: assumption log, entry 7.) -/
structure Memory where
  cells : List (Int × Int)
  zeros : List Int
deriving DecidableEq, Repr

/-- One core instance (R20, R43). -/
structure State where
  /-- The instance's parameters (R8): the model's own field, never written. -/
  cfg : Config
  /-- IP, the instruction pointer (R22). -/
  ip : Int
  /-- RB, the relative base (R25). -/
  rb : Int
  /-- M, the memory (R34, R50). -/
  mem : Memory
  /-- IQ, the input queue, oldest entry first (R35). -/
  iq : List Int
  /-- OQ, the output queue, oldest entry first (R36). -/
  oq : List Int
  /-- STATUS (R28). -/
  status : Status
  /-- FR, the fault record (R33). -/
  fr : FaultRecord
deriving DecidableEq, Repr

/-- Ends of a step by a fault of the model. There is NONE: every fault the spec gives a core has an entry the spec
describes (R248) and is taken as a next state, so no step ever answers `Host.Outcome.fault`, and the type is empty. Safe:
nothing is stopped that the hardware would run. (DEDUCED: assumption log, entry 5.) -/
inductive Fault where
deriving DecidableEq, Repr

/-- Ends of a step by a refusal of the model. -/
inductive Refusal where
  /-- Raised by an arm of `exec` whose instruction has no meaning yet; every instruction has its meaning, so nothing
  raises it. Safe: a refused step proves nothing. -/
  | notModelled (mnemonic : String)
deriving DecidableEq, Repr

/-- What a sub-step that raises a fault hands to `halt_detect` (R248): the kind, FAULT_PARAM and FAULT_VALUE. -/
structure FaultInfo where
  kind : FaultKind
  param : Fin 4
  value : Int
deriving DecidableEq, Repr

/-- The end of one sub-step of a step (R114): it completes, with a value, or it raises a fault. Either way with the state
the sub-steps so far have produced, since a fault undoes nothing (R119). -/
inductive SubStep (α : Type) where
  | ok (a : α) (s : State)
  | raise (f : FaultInfo) (s : State)
deriving Repr

/-- R42 with the empty program: the state construction gives every instance, before its program's Words are placed. -/
def State.initial (c : Config) : State :=
  { cfg := c
    ip := ipReset
    rb := rbReset
    mem := { cells := [], zeros := [] }
    iq := []
    oq := []
    status := { state := .running, faultCode := none, lastExit := .noCommand, busy := none }
    fr := { faultIp := 0, faultWord := 0, faultParam := 0, faultValue := 0 } }

/-- The machine right after reset. Reset is construction (R270, R271), and a program is part of it; this is
`construct([])` under the parameters of this hardware. (DESIGN CHOICE, safe: assumption log, entry 3.) -/
def State.reset : State := State.initial Config.standard

end Sys2Proof.Machine
end

