-- ==== Sys2Proof/Machine/Alu.lean ====
section
/-!
DEFINITION. The alu (spec/41_arithmetic.md R140, R145) and `chk` (spec/00_scope.md R11).
-/

namespace Sys2Proof.Machine

/-- R11: the value, if it is a Word; `none` where `chk` raises OverflowFault. -/
def chk (c : Config) (v : Int) : Option Int := if c.IsWord v then some v else none

/-- The functions of the alu (R140). -/
inductive AluOp where
  | add
  | mul
  | lt
  | eq
  | nz
  | agen
deriving DecidableEq, Repr

/-- The exact result (R140), over the integers. -/
def aluExact : AluOp → Int → Int → Int
  | .add, a, b => a + b
  | .mul, a, b => a * b
  | .lt, a, b => if a < b then 1 else 0
  | .eq, a, b => if a = b then 1 else 0
  | .nz, a, _ => if a ≠ 0 then 1 else 0
  | .agen, a, b => a + b

/-- R140: the alu, the exact result through `chk`; `none` is the overflow output. -/
def alu (c : Config) (f : AluOp) (a b : Int) : Option Int := chk c (aluExact f a b)

end Sys2Proof.Machine
end

