-- ==== Sys2Proof/Machine/Flags.lean ====
section
/-!
DEFINITION. The STATUS register (spec/10_state.md R28 to R33).

The core has no flags, condition codes or predicates (R27), so there is no flag computation. What stands here is every
computation on STATUS: the register as 16 bits, and the writes of `halt_detect` (R226).
-/

namespace Sys2Proof.Machine

/-- STATUS.STATE as a number (R28). -/
def RunState.code : RunState → Nat
  | .running => 0
  | .halted => 1
  | .faulted => 2

/-- The code of a fault kind (R240). -/
def FaultKind.code : FaultKind → Nat
  | .decodeError => 1
  | .operandError => 2
  | .outOfBoundsError => 3
  | .starvationError => 4
  | .overflowFault => 5
  | .addressFault => 6
  | .capacityFault => 7

/-- STATUS.FAULT_CODE as a number (R28, R240): 0 for no fault. -/
def faultCodeNumber : Option FaultKind → Nat
  | none => 0
  | some k => k.code

/-- STATUS.LAST_EXIT as a number (R28). -/
def LastExit.code : LastExit → Nat
  | .noCommand => 0
  | .halted => 1
  | .needInput => 2
  | .output => 3
  | .fault => 4
  | .stepped => 5

/-- STATUS.BUSY as a number (R28, R32). -/
def busyBit : Option Command → Nat
  | none => 0
  | some _ => 1

/-- STATUS as the host reads it (R28): STATE in bits 1:0, FAULT_CODE in 7:4, LAST_EXIT in 10:8, BUSY in bit 11. -/
def Status.word (st : Status) : BitVec 16 :=
  BitVec.ofNat 16 (st.state.code + 2 ^ 4 * faultCodeNumber st.faultCode + 2 ^ 8 * st.lastExit.code
    + 2 ^ 11 * busyBit st.busy)

/-- R118, R183: STATE <- Halted. -/
def Status.enterHalted (st : Status) : Status := { st with state := .halted }

/-- R118, R30: STATE <- Faulted and FAULT_CODE <- the code of the fault. -/
def Status.enterFaulted (st : Status) (k : FaultKind) : Status :=
  { st with state := .faulted, faultCode := some k }

/-- R32: BUSY <- 1, by the acceptance of the command. -/
def Status.accept (st : Status) (c : Command) : Status := { st with busy := some c }

/-- R216 to R219: LAST_EXIT <- the reason, BUSY <- 0. -/
def Status.release (st : Status) (e : LastExit) : Status := { st with lastExit := e, busy := none }

end Sys2Proof.Machine
end

