-- ==== Sys2Proof/Machine/Ops.lean ====
section
/-!
DEFINITION. The named operations over memory, registers and queues, taking a fault, and the frame every instruction's step
shares (spec/10_state.md, 20_memory.md R52 to R60, 40_execution.md R111 to R119, 60_exceptions.md R248).

Every write to a field of `State` goes through one of the setters below. There is no return from a fault and no way to
resume after one (R250), so no such operation stands beside `faultEntry`.
-/

namespace Sys2Proof.Machine

/-! ## The setters -/

/-- IP <- v (R11). -/
def State.setIp (s : State) (v : Int) : State := { s with ip := v }

/-- RB <- v (R11). -/
def State.setRb (s : State) (v : Int) : State := { s with rb := v }

/-- M <- m. -/
def State.setMem (s : State) (m : Memory) : State := { s with mem := m }

/-- IQ <- q. -/
def State.setIq (s : State) (q : List Int) : State := { s with iq := q }

/-- OQ <- q. -/
def State.setOq (s : State) (q : List Int) : State := { s with oq := q }

/-- STATUS <- st. -/
def State.setStatus (s : State) (st : Status) : State := { s with status := st }

/-- FR <- r. -/
def State.setFr (s : State) (r : FaultRecord) : State := { s with fr := r }

/-! ## sparse_memory_ctrl -/

/-- The Word listed at `a`, and 0 where none is listed (R34, R52). -/
def readCell (a : Int) : List (Int × Int) → Int
  | [] => 0
  | (b, v) :: rest => if a = b then v else readCell a rest

/-- List `v` at `a`, in place of what was listed there. -/
def insertCell (a v : Int) : List (Int × Int) → List (Int × Int)
  | [] => [(a, v)]
  | (b, w) :: rest =>
    if a < b then (a, v) :: (b, w) :: rest
    else if a = b then (a, v) :: rest
    else (b, w) :: insertCell a v rest

/-- List nothing at `a`. -/
def eraseCell (a : Int) : List (Int × Int) → List (Int × Int)
  | [] => []
  | (b, w) :: rest => if a = b then rest else (b, w) :: eraseCell a rest

/-- List the address `a`, once. -/
def insertKey (a : Int) : List Int → List Int
  | [] => [a]
  | b :: rest => if a < b then a :: b :: rest else if a = b then b :: rest else b :: insertKey a rest

/-- Do not list the address `a`. -/
def eraseKey (a : Int) : List Int → List Int
  | [] => []
  | b :: rest => if a = b then rest else b :: eraseKey a rest

/-- The canonical form: both lists strictly rising, no 0 among the cells (0 is what an unlisted address reads as), and no
address on both lists. -/
abbrev Memory.wf (m : Memory) : Prop :=
  (m.cells.map Prod.fst).Pairwise (· < ·) ∧ (∀ e ∈ m.cells, e.2 ≠ 0) ∧ m.zeros.Pairwise (· < ·)
    ∧ ∀ a ∈ m.zeros, a ∉ m.cells.map Prod.fst

/-- R52: `MemRead(a, 1)`. -/
def Memory.read (m : Memory) (a : Int) : Int := readCell a m.cells

/-- R34: the address is present in M. -/
abbrev Memory.Present (m : Memory) (a : Int) : Prop := a ∈ m.cells.map Prod.fst ∨ a ∈ m.zeros

/-- R60: the count of present addresses. -/
def Memory.count (m : Memory) : Nat := m.cells.length + m.zeros.length

/-- R53: `M(a) = v`, inserted or overwritten. -/
def Memory.write (m : Memory) (a v : Int) : Memory :=
  if v = 0 then { cells := eraseCell a m.cells, zeros := insertKey a m.zeros }
  else { cells := insertCell a v m.cells, zeros := eraseKey a m.zeros }

/-- R212, R270: the Words of a program at consecutive addresses from `a`. -/
def Memory.load (m : Memory) (a : Int) : List Int → Memory
  | [] => m
  | v :: rest => Memory.load (m.write a v) (a + 1) rest

/-- One more entry fits under the capacity; `none` is unbounded (R8). -/
def hasRoom (capacity : Option Nat) (n : Nat) : Bool :=
  match capacity with
  | none => true
  | some c => n < c

/-! ## Sub-steps -/

/-- The next sub-step, if this one completed (R119: a fault ends the step where it is raised). -/
def SubStep.bind {α β : Type} (x : SubStep α) (f : α → State → SubStep β) : SubStep β :=
  match x with
  | .ok a s => f a s
  | .raise e s => .raise e s

/-- R53, R60: `MemWrite(a, 1, v)` for parameter `k`. -/
def memWrite (a v : Int) (k : Fin 4) (s : State) : SubStep Unit :=
  if s.mem.Present a ∨ hasRoom s.cfg.memCapacity s.mem.count = true then
    .ok () (s.setMem (s.mem.write a v))
  else .raise ⟨.capacityFault, k, 1⟩ s

/-- R111, R113: read the word at IP in position mode (R122), then IP <- chk(IP + 1). `k` is 0 for the instruction word and
the parameter's index for a parameter word. -/
def fetchWord (k : Fin 4) (s : State) : SubStep Int :=
  match chk s.cfg (s.ip + 1) with
  | none => .raise ⟨.overflowFault, k, 1⟩ s
  | some next => .ok (s.mem.read s.ip) (s.setIp next)

/-- R114, R140: the value of the alu as an instruction's result; on overflow FAULT_PARAM is 0 and FAULT_VALUE is 3 (R248). -/
def aluResult (f : AluOp) (a b : Int) (s : State) : SubStep Int :=
  match alu s.cfg f a b with
  | none => .raise ⟨.overflowFault, 0, 3⟩ s
  | some r => .ok r s

/-- R160: pop the front of IQ for parameter 1, or StarvationError. -/
def popInput (s : State) : SubStep Int :=
  match s.iq with
  | [] => .raise ⟨.starvationError, 1, 0⟩ s
  | x :: rest => .ok x (s.setIq rest)

/-- R161, R164: append to OQ, or CapacityFault(1) with value 2 where OQ is full. -/
def pushOutput (v : Int) (s : State) : SubStep Unit :=
  if hasRoom s.cfg.oqCapacity s.oq.length = true then .ok () (s.setOq (s.oq ++ [v]))
  else .raise ⟨.capacityFault, 1, 2⟩ s

/-- R182: a taken jump to `target`. -/
def jumpTo (target : Int) (s : State) : SubStep Unit :=
  if target < 0 then .raise ⟨.outOfBoundsError, 2, target⟩ s else .ok () (s.setIp target)

/-! ## Taking a fault, and the shared frame of a step -/

/-- R248: fault entry. `a` is the address of the instruction word and `w` that word. Nothing else is written. -/
def faultEntry (a w : Int) (f : FaultInfo) (s : State) : State :=
  (s.setStatus (s.status.enterFaulted f.kind)).setFr ⟨a, w, f.param, f.value⟩

/-- The end of a step that began at address `a` with instruction word `w` (R118). -/
def endOfStep (a w : Int) : SubStep Unit → State
  | .ok _ s => s
  | .raise f s => faultEntry a w f s

/-- R110, R111, R114: one step of a decoded instruction. On a core that is not Running it executes nothing (R120). Else
the instruction word is read and IP advanced, and then `body`, the opcode's body (R124), runs. (DEDUCED, safe: assumption
log, entry 9.) -/
def runBody (body : State → SubStep Unit) (s : State) : Host.Outcome State Fault Refusal :=
  if s.status.state = .running then
    .next (endOfStep s.ip (s.mem.read s.ip) ((fetchWord 0 s).bind fun _ t => body t))
  else .next s

end Sys2Proof.Machine
end

