-- ==== Sys2Proof/Machine/Operands.lean ====
section
/-!
DEFINITION. The memory_arbiter's operand resolution (spec/20_memory.md R61 to R67): the one place where modes are
interpreted.
-/

namespace Sys2Proof.Machine

/-- R61 `resolve_addr` before its sign check: the effective address of a parameter word. A relative one goes through the
alu's AGEN. (In immediate mode a parameter has no address: `load` and `store` never ask for one.) -/
def effectiveAddr (c : Config) (rb p : Int) (m : Mode) (k : Fin 4) : Except FaultInfo Int :=
  match m with
  | .relative =>
    match alu c .agen p rb with
    | none => .error ⟨.overflowFault, k, 2⟩
    | some a => .ok a
  | .position => .ok p
  | .immediate => .ok p

/-- R61 `resolve_addr(p, m, k)`, with RB = `rb`. -/
def resolveAddr (c : Config) (rb p : Int) (m : Mode) (k : Fin 4) : Except FaultInfo Int :=
  match effectiveAddr c rb p m k with
  | .error e => .error e
  | .ok a => if a < 0 ∧ c.negAddrPolicy = .fault then .error ⟨.addressFault, k, a⟩ else .ok a

/-- R61 `load(p, m, k)`. -/
def load (p : Int) (m : Mode) (k : Fin 4) (s : State) : SubStep Int :=
  match m with
  | .immediate => .ok p s
  | .position =>
    match resolveAddr s.cfg s.rb p .position k with
    | .error e => .raise e s
    | .ok a => .ok (s.mem.read a) s
  | .relative =>
    match resolveAddr s.cfg s.rb p .relative k with
    | .error e => .raise e s
    | .ok a => .ok (s.mem.read a) s

/-- R61 `store(p, v, m, k)`. -/
def store (p v : Int) (m : Mode) (k : Fin 4) (s : State) : SubStep Unit :=
  match m with
  | .immediate => .raise ⟨.operandError, k, p⟩ s
  | .position =>
    match resolveAddr s.cfg s.rb p .position k with
    | .error e => .raise e s
    | .ok a => memWrite a v k s
  | .relative =>
    match resolveAddr s.cfg s.rb p .relative k with
    | .error e => .raise e s
    | .ok a => memWrite a v k s

/-- R113: a source parameter is fetched, and resolved before the next parameter is fetched. -/
def fetchSource (m : Mode) (k : Fin 4) (s : State) : SubStep Int :=
  (fetchWord k s).bind fun p t => load p m k t

end Sys2Proof.Machine
end

