-- ==== Sys2Proof/Machine/Arith.lean ====
section
/-!
DEFINITION. `add`, `multiply`, `less_than` and `equals` (spec/41_arithmetic.md R141 to R146).
-/

namespace Sys2Proof.Machine

/-- The body the four instructions share (R141 to R144): two sources, the destination's word, the alu, the store. -/
def aluBody (f : AluOp) (m1 m2 m3 : Mode) (s : State) : SubStep Unit :=
  (fetchSource m1 1 s).bind fun a s =>
  (fetchSource m2 2 s).bind fun b s =>
  (fetchWord 3 s).bind fun p3 s =>
  (aluResult f a b s).bind fun r s =>
  store p3 r m3 3 s

/-- R141: `add`. -/
def execAdd (m1 m2 m3 : Mode) (s : State) : Host.Outcome State Fault Refusal :=
  runBody (aluBody .add m1 m2 m3) s

/-- R142: `multiply`. -/
def execMultiply (m1 m2 m3 : Mode) (s : State) : Host.Outcome State Fault Refusal :=
  runBody (aluBody .mul m1 m2 m3) s

/-- R143: `less_than`. -/
def execLessThan (m1 m2 m3 : Mode) (s : State) : Host.Outcome State Fault Refusal :=
  runBody (aluBody .lt m1 m2 m3) s

/-- R144: `equals`. -/
def execEquals (m1 m2 m3 : Mode) (s : State) : Host.Outcome State Fault Refusal :=
  runBody (aluBody .eq m1 m2 m3) s

end Sys2Proof.Machine
end

