-- ==== Sys2Proof/Machine/Control.lean ====
section
/-!
DEFINITION. `jump_if_true`, `jump_if_false` and `halt` (spec/43_control.md R180 to R184). The mode digit m3 of a jump and
all three of `halt` have no effect (R90).
-/

namespace Sys2Proof.Machine

/-- The body the two jumps share (R180, R181): both sources are loaded whether or not the jump is taken; the jump is taken
where `alu(NZ, t, 0)` is `taken`. -/
def jumpBody (taken : Int) (m1 m2 : Mode) (s : State) : SubStep Unit :=
  (fetchSource m1 1 s).bind fun t s =>
  (fetchSource m2 2 s).bind fun target s =>
  (aluResult .nz t 0 s).bind fun nz s =>
  if nz = taken then jumpTo target s else .ok () s

/-- R180: `jump_if_true`. -/
def execJumpIfTrue (m1 m2 : Mode) (s : State) : Host.Outcome State Fault Refusal :=
  runBody (jumpBody 1 m1 m2) s

/-- R181: `jump_if_false`. -/
def execJumpIfFalse (m1 m2 : Mode) (s : State) : Host.Outcome State Fault Refusal :=
  runBody (jumpBody 0 m1 m2) s

/-- The body of R183: IP <- HALT_SENTINEL and STATE <- Halted. -/
def haltBody (s : State) : SubStep Unit :=
  .ok () ((s.setIp s.cfg.haltSentinel).setStatus s.status.enterHalted)

/-- R183: `halt`. -/
def execHalt (s : State) : Host.Outcome State Fault Refusal := runBody haltBody s

end Sys2Proof.Machine
end

