-- ==== Sys2Proof/Machine/Io.lean ====
section
/-!
DEFINITION. `read_input` and `write_output` (spec/42_io.md R160 to R164). The mode digits m2 and m3 have no effect (R90).
-/

namespace Sys2Proof.Machine

/-- The body of R160: the parameter word is fetched, then IQ is popped, then the value is stored. -/
def readInputBody (m1 : Mode) (s : State) : SubStep Unit :=
  (fetchWord 1 s).bind fun p1 s =>
  (popInput s).bind fun x s =>
  store p1 x m1 1 s

/-- R160: `read_input`. -/
def execReadInput (m1 : Mode) (s : State) : Host.Outcome State Fault Refusal :=
  runBody (readInputBody m1) s

/-- The body of R161. -/
def writeOutputBody (m1 : Mode) (s : State) : SubStep Unit :=
  (fetchSource m1 1 s).bind fun v s => pushOutput v s

/-- R161: `write_output`. -/
def execWriteOutput (m1 : Mode) (s : State) : Host.Outcome State Fault Refusal :=
  runBody (writeOutputBody m1) s

end Sys2Proof.Machine
end

