-- ==== Sys2Proof/Machine/RelativeBase.lean ====
section
/-!
DEFINITION. `adjust_relative_base` (spec/44_relative_base.md R200, R201). The mode digits m2 and m3 have no effect (R90).
-/

namespace Sys2Proof.Machine

/-- The body of R200: the operand is loaded with the old RB, then RB <- chk(RB + v). -/
def adjustRelativeBaseBody (m1 : Mode) (s : State) : SubStep Unit :=
  (fetchSource m1 1 s).bind fun v s =>
  (aluResult .add s.rb v s).bind fun rb s => .ok () (s.setRb rb)

/-- R200: `adjust_relative_base`. -/
def execAdjustRelativeBase (m1 : Mode) (s : State) : Host.Outcome State Fault Refusal :=
  runBody (adjustRelativeBaseBody m1) s

end Sys2Proof.Machine
end

