-- ==== Sys2Proof/Machine/Cycle.lean ====
section
/-!
DEFINITION. The execution cycle (spec/40_execution.md R110 to R124): one step of the core itself, without what a host
command adds to it (BUSY and LAST_EXIT: Run.lean).
-/

namespace Sys2Proof.Machine

/-- R248, the row DecodeError: FAULT_PARAM is the k of `BadMode(k)`, FAULT_VALUE the number of the cause. -/
def decodeFault : DecodeErr → FaultInfo
  | .negativeWord => ⟨.decodeError, 0, 1⟩
  | .highDigits => ⟨.decodeError, 0, 2⟩
  | .badOpcode => ⟨.decodeError, 0, 3⟩
  | .badMode k => ⟨.decodeError, k, 4⟩

/-- The word at IP, decoded (R91, R111). -/
def decodeAtIp (s : State) : Except DecodeErr Instr := decode s.cfg.highDigitPolicy (s.mem.read s.ip)

/-- R114, R120: one step of the core. The instruction word is read and IP advanced before anything is decoded (R111), so
where the increment overflows, that is the step's fault whatever the word is (R251); a word that does not decode raises
DecodeError with IP advanced (R112). -/
def coreStep (s : State) : Host.Outcome State Fault Refusal :=
  if s.status.state = .running then
    match decodeAtIp s with
    | .ok i => exec i s
    | .error e =>
      .next (endOfStep s.ip (s.mem.read s.ip) ((fetchWord 0 s).bind fun _ t => .raise (decodeFault e) t))
  else .next s

end Sys2Proof.Machine
end

