-- ==== Sys2Proof/Machine/Run.lean ====
section
/-!
DEFINITION. `halt_detect` and the commands that run the core (spec/48_run_protocol.md R216 to R221, R226).

A command keeps the core busy from its acceptance until it returns (R32), and it is a loop: of one step for `step()`, of
possibly endlessly many for the three run commands (R221). `turn` is ONE pass of that loop, so that a run command that
never returns is an infinite execution and is never cut off (R221).
-/

namespace Sys2Proof.Machine

/-- What a command returns to the host (R216 to R220). -/
inductive Reply where
  /-- `Running`, of `step()`. -/
  | running
  /-- `Halted`. -/
  | halted
  /-- `NeedInput`, of `run_while_input()`. -/
  | needInput
  /-- `Some(v)`, of `run_until_output()`. -/
  | output (v : Int)
  /-- `None`, of `run_until_output()`. -/
  | noOutput
  /-- `Fault(kind)`, with the recorded FAULT_CODE. -/
  | fault (code : Option FaultKind)
deriving DecidableEq, Repr

/-- R26: `is_done`. -/
abbrev State.isDone (s : State) : Prop := s.ip < 0

/-- R218, the guard: the word at IP decodes to opcode 3. -/
def atReadInput (s : State) : Bool :=
  match decodeAtIp s with
  | .ok i => opcodeOf i == 3
  | .error _ => false

/-- R217 to R219, R226: the loop decision of a command, from the current state alone: exit with a reply, or (`none`)
continue with a step. `step()` has no loop: it always steps. -/
def loopDecision (c : Command) (s : State) : Option Reply :=
  match c with
  | .step => none
  | .runToEnd =>
    if s.status.state = .faulted then some (.fault s.status.faultCode)
    else if s.isDone then some .halted
    else none
  | .runWhileInput =>
    if s.status.state = .faulted then some (.fault s.status.faultCode)
    else if s.isDone then some .halted
    else if s.iq = [] ∧ atReadInput s = true then some .needInput
    else none
  | .runUntilOutput =>
    if s.status.state = .faulted then some (.fault s.status.faultCode)
    else
      match s.oq with
      | v :: _ => some (.output v)
      | [] => if s.isDone then some .noOutput else none

/-- R216: what `step()` returns, from the state its step left (R118, R120). -/
def stepReply (s : State) : Reply :=
  match s.status.state with
  | .running => .running
  | .halted => .halted
  | .faulted => .fault s.status.faultCode

/-- R31, R216 to R219: LAST_EXIT for a reply. -/
def exitOf : Reply → LastExit
  | .running => .stepped
  | .halted => .halted
  | .needInput => .needInput
  | .output _ => .output
  | .noOutput => .halted
  | .fault _ => .fault

/-- R219: the value returned has been popped from OQ. -/
def takeReply (r : Reply) (s : State) : State :=
  match r with
  | .output _ => s.setOq s.oq.tail
  | _ => s

/-- R216 to R219: the command returns: LAST_EXIT is written and BUSY cleared. -/
def finish (r : Reply) (s : State) : State :=
  (takeReply r s).setStatus ((takeReply r s).status.release (exitOf r))

/-- R32: the command is accepted: BUSY is 1. -/
def accept (c : Command) (s : State) : State := s.setStatus (s.status.accept c)

/-- The end of one pass: `step()` returns after its step; a run command's loop goes round. -/
def afterStep (c : Command) (t : State) : Option Reply × State :=
  match c with
  | .step => (some (stepReply t), finish (stepReply t) t)
  | .runToEnd => (none, t)
  | .runWhileInput => (none, t)
  | .runUntilOutput => (none, t)

/-- One pass of the loop of the command `c`, and its reply if the command returned in it. -/
def turn (c : Command) (s : State) : Host.Outcome (Option Reply × State) Fault Refusal :=
  match loopDecision c s with
  | some r => .next (some r, finish r s)
  | none =>
    match coreStep s with
    | .next t => .next (afterStep c t)
    | .fault f => .fault f
    | .refused r => .refused r

/-- The command the core is running, or, on an idle core, `step()`, which the model's own step issues. -/
def currentCommand (s : State) : Command :=
  match s.status.busy with
  | some c => c
  | none => .step

/-- What the core does next: one pass of the command in progress; on an idle core, the host command `step()` (R216). -/
def nextTurn (s : State) : Host.Outcome (Option Reply × State) Fault Refusal :=
  turn (currentCommand s) (accept (currentCommand s) s)

end Sys2Proof.Machine
end

