-- ==== Sys2Proof/Machine/Fetch.lean ====
section
/-!
DEFINITION. An instruction placed where the core fetches next.
-/

namespace Sys2Proof.Machine

/-- The Words of an instruction given by its bits, stored at IP and the addresses after it. Memory alone is written (M as the
host's construction writes it: no capacity is asked). -/
def placeAtIp (s : State) (nbits w : Nat) : State :=
  s.setMem (s.mem.load s.ip (tableWords s.cfg.wordBits nbits w))

end Sys2Proof.Machine
end

