-- ==== Sys2Proof/Machine/Step.lean ====
section
/-!
DEFINITION. The machine's step. On an idle core it is the host command `step()` (spec/48_run_protocol.md R216): BUSY <- 1,
one step of the core (R114, R120), LAST_EXIT written, BUSY <- 0. While a run command is in progress it is one pass of that
command's loop (R217 to R219). Every rule it follows stands in Run.lean and Cycle.lean; this file only calls them. (DESIGN
CHOICE, safe: assumption log, entry 4.)
-/

namespace Sys2Proof.Machine

/-- The next state of the machine. -/
def step (s : State) : Host.Outcome State Fault Refusal :=
  match nextTurn s with
  | .next rt => .next rt.2
  | .fault f => .fault f
  | .refused r => .refused r

/-- The state with the instruction whose bits are `w` stored where `step` fetches its next instruction. -/
def State.withFetchWord (s : State) (nbits w : Nat) : State := placeAtIp s nbits w

end Sys2Proof.Machine
end

