-- ==== Sys2Proof/Machine/HostOps.lean ====
section
/-!
DEFINITION. The host interface of one instance (spec/48_run_protocol.md R210 to R226) and whole commands.

R210: these operations and no others; an operation that is not accepted is refused and changes nothing. `construct`,
`clone` and `discard` make and unmake instances: Bench.lean. An integer that is no Word is refused where an operation takes a
Word (DEDUCED, safe: assumption log, entry 8).
-/

namespace Sys2Proof.Machine

/-- R32, R211: the core is idle. -/
abbrev State.Idle (s : State) : Prop := s.status.busy = none

/-- R42, R212, R270: `construct(P)`; `none` is `Refused`. A program longer than the address space is not refused (DEDUCED,
safe: assumption log, entry 11). -/
def construct (c : Config) (program : List Int) : Option State :=
  if c.Accepts program then
    some ((State.initial c).setMem ((State.initial c).mem.load 0 program))
  else none

/-- The host operations on one instance (R210). -/
inductive HostOp where
  | pushInput (v : Int)
  | popOutput
  | peekQueues
  | isDone
  | readStatus
  /-- `step()`, `run_to_end()`, `run_while_input()` or `run_until_output()`: the command is handed to the core. -/
  | issue (c : Command)
  | readMem (a : Int)
  | readRegs
  | forceRb (b : Int)
deriving DecidableEq, Repr

/-- What a host operation returns (R210). -/
inductive HostReply where
  | refused
  | ok
  | popped (v : Option Int)
  | queues (iq oq : List Int)
  | done (d : Bool)
  | status (word : BitVec 16) (fr : FaultRecord)
  | word (v : Int)
  | regs (ip rb : Int)
deriving DecidableEq, Repr

/-- R213: `push_input(v)` on an idle core. -/
def pushInput (v : Int) (s : State) : HostReply × State :=
  if s.cfg.IsWord v ∧ hasRoom s.cfg.iqCapacity s.iq.length = true then (.ok, s.setIq (s.iq ++ [v]))
  else (.refused, s)

/-- R214: `pop_output()` on an idle core. -/
def popOutput (s : State) : HostReply × State :=
  match s.oq with
  | [] => (.popped none, s)
  | v :: rest => (.popped (some v), s.setOq rest)

/-- R223: `read_mem(a)` on an idle core. -/
def readMem (a : Int) (s : State) : HostReply :=
  if s.cfg.IsWord a ∧ ¬(a < 0 ∧ s.cfg.negAddrPolicy = .fault) then .word (s.mem.read a) else .refused

/-- R223: `force_rb(b)` on an idle core, in any STATE. -/
def forceRb (b : Int) (s : State) : HostReply × State :=
  if s.cfg.IsWord b then (.ok, s.setRb b) else (.refused, s)

/-- An operation on an idle core (R210). -/
def idleOp (op : HostOp) (s : State) : HostReply × State :=
  match op with
  | .pushInput v => pushInput v s
  | .popOutput => popOutput s
  | .peekQueues => (.queues s.iq s.oq, s)
  | .isDone => (.done (decide s.isDone), s)
  | .readStatus => (.status s.status.word s.fr, s)
  | .issue c => (.ok, accept c s)
  | .readMem a => (readMem a s, s)
  | .readRegs => (.regs s.ip s.rb, s)
  | .forceRb b => forceRb b s

/-- An operation on a busy core (R211): all but `read_status` are refused. -/
def busyOp (op : HostOp) (s : State) : HostReply × State :=
  match op with
  | .readStatus => (.status s.status.word s.fr, s)
  | .pushInput _ => (.refused, s)
  | .popOutput => (.refused, s)
  | .peekQueues => (.refused, s)
  | .isDone => (.refused, s)
  | .issue _ => (.refused, s)
  | .readMem _ => (.refused, s)
  | .readRegs => (.refused, s)
  | .forceRb _ => (.refused, s)

/-- R210, R211: a host operation on one instance. -/
def hostOp (op : HostOp) (s : State) : HostReply × State :=
  if s.Idle then idleOp op s else busyOp op s

/-- At most `n` passes of the loop of command `c`: its reply and the state it leaves, if it returns in them. Running out of
passes is no result of the command (R221). -/
def runTurns (n : Nat) (c : Command) (s : State) : Option (Reply × State) :=
  match n with
  | 0 => none
  | k + 1 =>
    match turn c s with
    | .next (some r, t) => some (r, t)
    | .next (none, t) => runTurns k c t
    | .fault _ => none
    | .refused _ => none

/-- The command `c`, issued in the idle state `s`, returns `r` and leaves the state `t` (R216 to R219). -/
def Returns (c : Command) (s : State) (r : Reply) (t : State) : Prop :=
  s.Idle ∧ ∃ n, runTurns n c (accept c s) = some (r, t)

/-- R221: the command `c`, issued in the idle state `s`, never returns: a hang. -/
def Hangs (c : Command) (s : State) : Prop := s.Idle ∧ ∀ n, runTurns n c (accept c s) = none

end Sys2Proof.Machine
end

