-- ==== Sys2Proof/Machine/Bench.lean ====
section
/-!
DEFINITION. Several instances side by side (spec/10_state.md R43, 48_run_protocol.md R222, R227, R229; 60_exceptions.md
R257, R260). The host holds them; they share nothing, and the order of what happens to them is the host's (R227), so a
bench moves by events and fixes no schedule. (DESIGN CHOICE, safe: assumption log, entry 10.)
-/

namespace Sys2Proof.Machine

/-- The instances the host holds, by number; `none` where an instance has been discarded. -/
abbrev Bench := List (Option State)

/-- What can happen on a bench. -/
inductive BenchEvent where
  /-- `construct(P)`: a new instance. -/
  | construct (cfg : Config) (program : List Int)
  /-- `clone()` of instance `n`: a new instance (R222). -/
  | clone (n : Nat)
  /-- `discard()` of instance `n` (R229). -/
  | discard (n : Nat)
  /-- A host operation on instance `n`. -/
  | host (n : Nat) (op : HostOp)
  /-- The core of instance `n` makes one pass of its command; an idle core stays idle (R259). -/
  | advance (n : Nat)
deriving DecidableEq, Repr

/-- What the host sees of an event. -/
inductive BenchReply where
  | refused
  | newInstance (n : Nat)
  | ok
  | host (r : HostReply)
  /-- A command is still in progress, or the core is idle. -/
  | pending
  /-- A command has returned. -/
  | returned (r : Reply)
deriving DecidableEq, Repr

/-- The instance of a number, if it exists. -/
def Bench.at (b : Bench) (n : Nat) : Option State :=
  match b[n]? with
  | some (some s) => some s
  | _ => none

/-- `construct(P)` on a bench (R212). -/
def Bench.construct (b : Bench) (c : Config) (program : List Int) : BenchReply × Bench :=
  match Machine.construct c program with
  | some s => (.newInstance b.length, b ++ [some s])
  | none => (.refused, b)

/-- `clone()` on a bench (R222): accepted on an idle instance. -/
def Bench.clone (b : Bench) (n : Nat) : BenchReply × Bench :=
  match b.at n with
  | some s => if s.Idle then (.newInstance b.length, b ++ [some s]) else (.refused, b)
  | none => (.refused, b)

/-- `discard()` on a bench (R229): accepted on an idle instance. -/
def Bench.discard (b : Bench) (n : Nat) : BenchReply × Bench :=
  match b.at n with
  | some s => if s.Idle then (.ok, b.set n none) else (.refused, b)
  | none => (.refused, b)

/-- A host operation on one instance of a bench. -/
def Bench.hostOp (b : Bench) (n : Nat) (op : HostOp) : BenchReply × Bench :=
  match b.at n with
  | some s => (.host (Machine.hostOp op s).1, b.set n (some (Machine.hostOp op s).2))
  | none => (.refused, b)

/-- One pass of the command an instance runs. -/
def Bench.advance (b : Bench) (n : Nat) : BenchReply × Bench :=
  match b.at n with
  | some s =>
    match s.status.busy with
    | none => (.pending, b)
    | some c =>
      match turn c s with
      | .next (some r, t) => (.returned r, b.set n (some t))
      | .next (none, t) => (.pending, b.set n (some t))
      | .fault _ => (.pending, b)
      | .refused _ => (.pending, b)
  | none => (.refused, b)

/-- One event on a bench. -/
def Bench.apply (b : Bench) (e : BenchEvent) : BenchReply × Bench :=
  match e with
  | .construct c program => b.construct c program
  | .clone n => b.clone n
  | .discard n => b.discard n
  | .host n op => b.hostOp n op
  | .advance n => b.advance n

/-- The number of the instance an event acts on, if it acts on one that exists already. -/
def BenchEvent.target : BenchEvent → Option Nat
  | .construct _ _ => none
  | .clone _ => none
  | .discard n => some n
  | .host n _ => some n
  | .advance n => some n

end Sys2Proof.Machine
end

