-- ==== Sys2Proof/Safety.lean ====
section
/-!
DEFINITION. What counts as a safe run, the invariant of the machine, and the words the statements are written in.

The words are written from the rules of the spec a second time, without the machine's sub-steps, so that a statement made
of them says what the machine does and does not repeat how it is defined.
-/

namespace Sys2Proof.Machine

/-! ## Safe runs -/

/-- R225: a claim about a run that reaches STATE = Faulted is refuted, so a state is safe where it is not Faulted. -/
abbrev State.Safe (s : State) : Prop := s.status.state ≠ .faulted

/-- STATE = Running (R110). -/
abbrev State.Running (s : State) : Prop := s.status.state = .running

/-! ## The invariant -/

/-- FR with 0 in every field (R33). -/
def FaultRecord.clear : FaultRecord := ⟨0, 0, 0, 0⟩

/-- What holds of every state of a core: at construction, after every step and after every host operation. -/
structure Inv (s : State) : Prop where
  /-- The parameters are those R8 allows. -/
  cfgValid : s.cfg.Valid
  /-- R9: IP is a Word. -/
  ipWord : s.cfg.IsWord s.ip
  /-- R9, R25: RB is a Word. -/
  rbWord : s.cfg.IsWord s.rb
  /-- The memory is in its canonical form. -/
  memWf : s.mem.wf
  /-- R9: every Word of memory is a Word. -/
  memWords : ∀ e ∈ s.mem.cells, s.cfg.IsWord e.2
  /-- R59: every present address is a valid address. -/
  cellsValid : ∀ a ∈ s.mem.cells.map Prod.fst, s.cfg.IsWord a ∧ (s.cfg.negAddrPolicy = .fault → 0 ≤ a)
  /-- R59: every present address is a valid address. -/
  zerosValid : ∀ a ∈ s.mem.zeros, s.cfg.IsWord a ∧ (s.cfg.negAddrPolicy = .fault → 0 ≤ a)
  /-- R9, R35: IQ holds Words. -/
  iqWords : ∀ v ∈ s.iq, s.cfg.IsWord v
  /-- R9, R36: OQ holds Words. -/
  oqWords : ∀ v ∈ s.oq, s.cfg.IsWord v
  /-- R29: STATE = Halted exactly where `is_done` holds. -/
  haltedIff : s.status.state = .halted ↔ s.ip < 0
  /-- R30: FAULT_CODE is 0 exactly while STATE is not Faulted. -/
  faultCodeIff : s.status.state = .faulted ↔ s.status.faultCode ≠ none
  /-- R33: FR is 0 while STATE is not Faulted. -/
  frClear : s.status.state ≠ .faulted → s.fr = FaultRecord.clear
  /-- R33: three fields of FR are Words. -/
  frWords : s.cfg.IsWord s.fr.faultIp ∧ s.cfg.IsWord s.fr.faultWord ∧ s.cfg.IsWord s.fr.faultValue
  /-- R60: at most MEM_CAPACITY addresses are present. -/
  memFits : ∀ cap ∈ s.cfg.memCapacity, s.mem.count ≤ cap
  /-- R213: at most IQ_CAPACITY entries. -/
  iqFits : ∀ cap ∈ s.cfg.iqCapacity, s.iq.length ≤ cap
  /-- R164: at most OQ_CAPACITY entries. -/
  oqFits : ∀ cap ∈ s.cfg.oqCapacity, s.oq.length ≤ cap

/-! ## The steps of a run -/

/-- The state after `n` steps of the core (R114, R120), with no host action between them. A step always answers a next state
(`coreStep_next`). -/
def State.afterSteps (n : Nat) (s : State) : State :=
  match n with
  | 0 => s
  | k + 1 =>
    match coreStep s with
    | .next t => t.afterSteps k
    | .fault _ => s
    | .refused _ => s

/-! ## The operands of the instruction at IP -/

/-- R113: parameter word `k`, which stands at `A + k`. -/
def State.param (s : State) (k : Nat) : Int := s.mem.read (s.ip + k)

/-- R24: IP can be advanced over `n` Words, one at a time. -/
abbrev State.Fits (s : State) (n : Nat) : Prop := s.cfg.wordMin ≤ s.ip + 1 ∧ s.ip + n ≤ s.cfg.wordMax

/-- R63 to R66: the address parameter `k` names in mode `m`. -/
def State.operandAddr (s : State) (m : Mode) (k : Nat) : Int :=
  match m with
  | .relative => s.param k + s.rb
  | .position => s.param k
  | .immediate => s.param k

/-- R59, R61: that address is one the core may access. -/
abbrev State.CanAddress (s : State) (m : Mode) (k : Nat) : Prop :=
  (m = .relative → s.cfg.IsWord (s.operandAddr m k)) ∧ (s.cfg.negAddrPolicy = .fault → 0 ≤ s.operandAddr m k)

/-- R62 to R64: parameter `k` can be loaded in mode `m`. -/
abbrev State.CanLoad (s : State) (m : Mode) (k : Nat) : Prop := m = .immediate ∨ s.CanAddress m k

/-- R62 to R64: the value of source parameter `k`. -/
def State.operand (s : State) (m : Mode) (k : Nat) : Int :=
  match m with
  | .immediate => s.param k
  | .position => s.mem.read (s.operandAddr .position k)
  | .relative => s.mem.read (s.operandAddr .relative k)

/-- R53, R60, R65 to R67: parameter `k` can be stored through in mode `m`. -/
abbrev State.CanStore (s : State) (m : Mode) (k : Nat) : Prop :=
  m ≠ .immediate ∧ s.CanAddress m k
    ∧ (s.mem.Present (s.operandAddr m k) ∨ hasRoom s.cfg.memCapacity s.mem.count = true)

/-- The four instructions of one shape (R141 to R144): two sources, and a result stored through parameter 3. -/
inductive Binary where
  | add
  | multiply
  | lessThan
  | equals
deriving DecidableEq, Repr

/-- The instruction of a `Binary`. -/
def Binary.instr (b : Binary) (m1 m2 m3 : Mode) : Instr :=
  match b with
  | .add => .add m1 m2 m3
  | .multiply => .multiply m1 m2 m3
  | .lessThan => .lessThan m1 m2 m3
  | .equals => .equals m1 m2 m3

/-- Its exact result (R140). -/
def Binary.result (b : Binary) (x y : Int) : Int :=
  match b with
  | .add => x + y
  | .multiply => x * y
  | .lessThan => if x < y then 1 else 0
  | .equals => if x = y then 1 else 0

/-- STATUS after a step() (R216): LAST_EXIT from the outcome of the step, BUSY 0. -/
def Status.afterStepCommand (st : Status) : Status :=
  { st with
    lastExit :=
      match st.state with
      | .running => .stepped
      | .halted => .halted
      | .faulted => .fault
    busy := none }

/-- The state a fault leaves of `u` (R248): STATE, FAULT_CODE and FR written, the rest as it is in `u`. -/
def State.faultedBy (u : State) (kind : FaultKind) (fr : FaultRecord) : State :=
  { u with status := { u.status with state := .faulted, faultCode := some kind }, fr := fr }

/-! ## The fault a step raises, by the table of R251 -/

/-- One check of a step: it fails, or not; and the fault it then raises. -/
abbrev Check := Bool × FaultInfo

/-- R251: the fault of a step is that of the first check that fails. -/
def firstFailure : List Check → Option FaultInfo
  | [] => none
  | (fails, f) :: rest => if fails then some f else firstFailure rest

/-- R251.1, R251.3: the IP increment after word `k` (0 is the instruction word). -/
def State.incrementCheck (s : State) (k : Fin 4) : Check :=
  (decide (¬s.cfg.IsWord (s.ip + k.val + 1)), ⟨.overflowFault, k, 1⟩)

/-- R251.3: the resolution of an address: first the Word range, then the sign. -/
def State.addressChecks (s : State) (m : Mode) (k : Fin 4) : List Check :=
  [(decide (m = .relative ∧ ¬s.cfg.IsWord (s.operandAddr m k.val)), ⟨.overflowFault, k, 2⟩),
   (decide (s.operandAddr m k.val < 0 ∧ s.cfg.negAddrPolicy = .fault), ⟨.addressFault, k, s.operandAddr m k.val⟩)]

/-- R251.3: a source parameter. -/
def State.sourceChecks (s : State) (m : Mode) (k : Fin 4) : List Check :=
  s.incrementCheck k :: (if m = .immediate then [] else s.addressChecks m k)

/-- R251.6: the store through a destination parameter. -/
def State.storeChecks (s : State) (m : Mode) (k : Fin 4) : List Check :=
  if m = .immediate then [(true, ⟨.operandError, k, s.param k.val⟩)]
  else s.addressChecks m k
    ++ [(decide (¬s.mem.Present (s.operandAddr m k.val) ∧ hasRoom s.cfg.memCapacity s.mem.count = false),
         ⟨.capacityFault, k, 1⟩)]

/-- R251.5: the exact result `v` of the alu. -/
def State.resultCheck (s : State) (v : Int) : Check := (decide (¬s.cfg.IsWord v), ⟨.overflowFault, 0, 3⟩)

/-- R251.6: a jump to `target`, if it is taken. -/
def jumpCheck (taken : Bool) (target : Int) : Check := (taken && decide (target < 0), ⟨.outOfBoundsError, 2, target⟩)

/-- R251, after the decode: the checks of an instruction in their order. A comparison's result is 0 or 1 and has none. -/
def State.bodyChecks (s : State) : Instr → List Check
  | .add m1 m2 m3 => s.sourceChecks m1 1 ++ s.sourceChecks m2 2 ++ [s.incrementCheck 3]
      ++ [s.resultCheck (s.operand m1 1 + s.operand m2 2)] ++ s.storeChecks m3 3
  | .multiply m1 m2 m3 => s.sourceChecks m1 1 ++ s.sourceChecks m2 2 ++ [s.incrementCheck 3]
      ++ [s.resultCheck (s.operand m1 1 * s.operand m2 2)] ++ s.storeChecks m3 3
  | .lessThan m1 m2 m3 => s.sourceChecks m1 1 ++ s.sourceChecks m2 2 ++ [s.incrementCheck 3] ++ s.storeChecks m3 3
  | .equals m1 m2 m3 => s.sourceChecks m1 1 ++ s.sourceChecks m2 2 ++ [s.incrementCheck 3] ++ s.storeChecks m3 3
  | .readInput m1 _ _ => [s.incrementCheck 1] ++ [(decide (s.iq = []), ⟨.starvationError, 1, 0⟩)] ++ s.storeChecks m1 1
  | .writeOutput m1 _ _ => s.sourceChecks m1 1
      ++ [(decide (hasRoom s.cfg.oqCapacity s.oq.length = false), ⟨.capacityFault, 1, 2⟩)]
  | .jumpIfTrue m1 m2 _ => s.sourceChecks m1 1 ++ s.sourceChecks m2 2
      ++ [jumpCheck (decide (s.operand m1 1 ≠ 0)) (s.operand m2 2)]
  | .jumpIfFalse m1 m2 _ => s.sourceChecks m1 1 ++ s.sourceChecks m2 2
      ++ [jumpCheck (decide (s.operand m1 1 = 0)) (s.operand m2 2)]
  | .adjustRelativeBase m1 _ _ => s.sourceChecks m1 1 ++ [s.resultCheck (s.rb + s.operand m1 1)]
  | .halt _ _ _ => []

/-- R251: the checks of a step of a Running core, in their order. -/
def State.stepChecks (s : State) : List Check :=
  s.incrementCheck 0 ::
    match decodeAtIp s with
    | .error e => [(true, decodeFault e)]
    | .ok i => s.bodyChecks i

/-- R248: the state `t` records the fault `f` of a step that began in `s`. -/
abbrev RecordsFault (s t : State) (f : FaultInfo) : Prop :=
  t.status.state = .faulted ∧ t.status.faultCode = some f.kind
    ∧ t.fr = ⟨s.ip, s.mem.read s.ip, f.param, f.value⟩

end Sys2Proof.Machine
end

