-- ==== Sys2Proof/Certificates/Slice0/Obligations.lean ====
section
/-!
DEFINITION. The statements for the provers.

They are written in the words of Safety.lean (parameters and operands of the instruction at IP, the checks of a step) and in
the model's own operations. Next states are written out field by field. A premise `s.cfg.Valid` says that the parameters are
those 00_scope.md R8 allows; it is part of the invariant `Inv`.
-/

open Sys2Proof
open Sys2Proof.Machine

/-! ## The encoding -/

/-- Decode and encode agree: a well-formed line (30_encoding.md, sections 1 and 4) placed before any other Words decodes to
itself, with every mode digit at every value, and leaves the Words after it. Under both values of `HIGH_DIGIT_POLICY`. -/
def Obligations.DecodeOfEncodeIsTheLine : Prop :=
  ∀ (c : Config) (policy : HighDigitPolicy) (l : Line) (rest : List Int), l.WellFormed c →
    decode policy (encode l.instr) = .ok l.instr ∧ decodeLine policy (encodeLine l ++ rest) = some (l, rest)

/-- Every word has one meaning: under `ignore` a word decodes to an instruction exactly where it is not negative and its five
low digits are the instruction's word; under `fault` exactly where it is the instruction's word (30_encoding.md, section 1
and section 3). -/
def Obligations.DecodeAcceptsExactlyTheEncodings : Prop :=
  ∀ (w : Int) (i : Instr),
    (decode .ignore w = .ok i ↔ 0 ≤ w ∧ w % 100000 = encode i) ∧ (decode .fault w = .ok i ↔ w = encode i)

/-- The cause of a DecodeError: sign, then high digits, then opcode, then modes 1, 2, 3 (30_encoding.md, section 3). -/
def Obligations.DecoderRejectsInTheOrderOfItsChecks : Prop :=
  ∀ (policy : HighDigitPolicy) (w : Int),
    (decode policy w = .error .negativeWord ↔ w < 0) ∧
    (decode policy w = .error .highDigits ↔ 0 ≤ w ∧ policy = .fault ∧ 100000 ≤ w) ∧
    (decode policy w = .error .badOpcode ↔
      0 ≤ w ∧ ¬(policy = .fault ∧ 100000 ≤ w) ∧ w % 100 ∉ ([1, 2, 3, 4, 5, 6, 7, 8, 9, 99] : List Int)) ∧
    ∀ k : Fin 4, decode policy w = .error (.badMode k) ↔
      0 ≤ w ∧ ¬(policy = .fault ∧ 100000 ≤ w) ∧ w % 100 ∈ ([1, 2, 3, 4, 5, 6, 7, 8, 9, 99] : List Int) ∧
        1 ≤ k.val ∧ 2 < w / 10 ^ (k.val + 1) % 10 ∧ ∀ j : Nat, 1 ≤ j → j < k.val → w / 10 ^ (j + 1) % 10 ≤ 2

/-- Opcodes 0 and 10 to 98 are DecodeErrors, and so is a step at an absent address (30_encoding.md, section 2; the spec marks
the sentence on absent addresses as derived). -/
def Obligations.UnknownOpcodeFaultsAtItsStep : Prop :=
  ∀ s : State, s.Running → s.cfg.IsWord (s.ip + 1) →
    (0 ≤ s.mem.read s.ip → (s.mem.read s.ip % 100 = 0 ∨ 10 ≤ s.mem.read s.ip % 100 ∧ s.mem.read s.ip % 100 ≤ 98) →
      ∃ t, coreStep s = .next t ∧ t.status.state = .faulted ∧ t.status.faultCode = some .decodeError) ∧
    (¬s.mem.Present s.ip →
      ∃ t, coreStep s = .next t ∧ t.status.state = .faulted ∧ t.status.faultCode = some .decodeError)

/-- R85: absent high digits mean position mode. -/
def Obligations.MissingModeDigitsMeanPosition : Prop :=
  ∀ (policy : HighDigitPolicy) (w : Int) (i : Instr), decode policy w = .ok i →
    (w < 100 → modesOf i = (.position, .position, .position)) ∧
    (w < 1000 → (modesOf i).2 = (.position, .position)) ∧
    (w < 10000 → (modesOf i).2.2 = .position) ∧
    decode policy 2 = .ok (.multiply .position .position .position)

/-- A mode digit of a parameter the opcode does not have is checked, and has no effect (30_encoding.md, section 2). -/
def Obligations.UnusedModeDigitsHaveNoEffect : Prop :=
  (∀ (m1 m2 m3 n2 n3 : Mode) (s : State),
    exec (.readInput m1 m2 m3) s = exec (.readInput m1 n2 n3) s ∧
    exec (.writeOutput m1 m2 m3) s = exec (.writeOutput m1 n2 n3) s ∧
    exec (.adjustRelativeBase m1 m2 m3) s = exec (.adjustRelativeBase m1 n2 n3) s ∧
    exec (.jumpIfTrue m1 m2 m3) s = exec (.jumpIfTrue m1 m2 n3) s ∧
    exec (.jumpIfFalse m1 m2 m3) s = exec (.jumpIfFalse m1 m2 n3) s) ∧
  (∀ (m1 m2 m3 n1 n2 n3 : Mode) (s : State), exec (.halt m1 m2 m3) s = exec (.halt n1 n2 n3) s) ∧
  ∀ policy, decode policy 22299 = .ok (.halt .relative .relative .relative) ∧
    decode policy 99 = .ok (.halt .position .position .position) ∧ decode policy 3099 = .error (.badMode 2)

/-- Words written out digit by digit from the encodings of 30_encoding.md, section 2, one per family at least. -/
def Obligations.WordsOfTheSpecDecode : Prop :=
  decode .ignore 1002 = .ok (.multiply .position .immediate .position) ∧
  decode .ignore 21101 = .ok (.add .immediate .immediate .relative) ∧
  decode .ignore 203 = .ok (.readInput .relative .position .position) ∧
  decode .ignore 104 = .ok (.writeOutput .immediate .position .position) ∧
  decode .ignore 1005 = .ok (.jumpIfTrue .position .immediate .position) ∧
  decode .ignore 1206 = .ok (.jumpIfFalse .relative .immediate .position) ∧
  decode .ignore 21107 = .ok (.lessThan .immediate .immediate .relative) ∧
  decode .ignore 108 = .ok (.equals .immediate .position .position) ∧
  decode .ignore 109 = .ok (.adjustRelativeBase .immediate .position .position) ∧
  decode .ignore 100001 = .ok (.add .position .position .position) ∧
  decode .fault 100001 = .error .highDigits ∧
  decode .ignore 99999 = .error (.badMode 1) ∧ decode .ignore 99943 = .error .badOpcode

/-! ## Construction, reset and the invariant -/

/-- R212: construction is refused in two cases and in no other. -/
def Obligations.ConstructIsRefusedInTwoCases : Prop :=
  ∀ (c : Config) (program : List Int),
    (construct c program = none ↔
      (∃ v ∈ program, ¬(c.wordMin ≤ v ∧ v ≤ c.wordMax)) ∨ ∃ cap, c.memCapacity = some cap ∧ cap < program.length) ∧
    ∀ s, construct c program = some s →
      s = { State.initial c with mem := s.mem } ∧
      (∀ n : Nat, (h : n < program.length) → s.mem.Present n ∧ s.mem.read n = program[n]) ∧
      ∀ a : Int, a < 0 ∨ (program.length : Int) ≤ a → ¬s.mem.Present a ∧ s.mem.read a = 0

/-- The state construction leaves (10_state.md, section 6; the table marks IP, IQ, OQ and STATE as derived, and RB, the other
STATUS fields and FR as the spec's decisions D8, D9 and D25). -/
def Obligations.ConstructLeavesTheResetState : Prop :=
  ∀ (c : Config) (program : List Int) (s : State), construct c program = some s →
    s.cfg = c ∧ s.ip = 0 ∧ s.rb = 0 ∧ s.iq = [] ∧ s.oq = [] ∧ s.status.state = .running ∧ s.status.word = 0 ∧
    s.fr = ⟨0, 0, 0, 0⟩ ∧
    (∀ n : Nat, (h : n < program.length) → s.mem.Present n ∧ s.mem.read n = program[n]) ∧
    ∀ a : Int, a < 0 ∨ (program.length : Int) ≤ a → ¬s.mem.Present a ∧ s.mem.read a = 0

/-- `State.reset` is the construction of the empty program under this hardware's parameters: the model's choice of program
(assumption log, entry 3). -/
def Obligations.ResetIsTheEmptyConstruction : Prop :=
  construct Config.standard [] = some State.reset ∧ State.reset.ip = 0 ∧ State.reset.rb = 0 ∧
  State.reset.mem = ⟨[], []⟩ ∧ State.reset.iq = [] ∧ State.reset.oq = [] ∧ State.reset.status.word = 0 ∧
  State.reset.fr = ⟨0, 0, 0, 0⟩

/-- The invariant holds at reset. -/
def Obligations.InvariantHoldsAtReset : Prop := Inv State.reset

/-- The invariant holds of every constructed core whose program has at most as many Words as there are valid addresses (20_memory.md
section 3; construction itself asks no such thing: assumption log, entry 11). -/
def Obligations.InvariantHoldsAtConstruction : Prop :=
  ∀ (c : Config) (program : List Int) (s : State), c.Valid → (program.length : Int) ≤ c.wordMax + 1 →
    construct c program = some s → Inv s

/-- Every step keeps the invariant: every Word stays in the Word range, the memory stays in its canonical form and within its
capacity, every present address stays valid, STATE is Halted exactly where IP is negative, and FAULT_CODE and FR are clear
exactly while STATE is not Faulted (00_scope.md section 4, 10_state.md section 3, 20_memory.md section 3). No step writes the
parameters. -/
def Obligations.StepKeepsTheInvariant : Prop :=
  ∀ s t : State, Inv s → step s = .next t → Inv t ∧ t.cfg = s.cfg

/-- Every host operation keeps the invariant (48_run_protocol.md, section 1). -/
def Obligations.HostOperationsKeepTheInvariant : Prop :=
  ∀ (op : HostOp) (s : State), Inv s → Inv (hostOp op s).2 ∧ (hostOp op s).2.cfg = s.cfg

/-! ## STATUS and the fault record -/

/-- The layout of STATUS as the host reads it, and the value of each field: the spec's own layout (10_state.md, section 3,
decisions D9 and D10) and codes (60_exceptions.md, section 1). -/
def Obligations.StatusWordHasTheStatedLayout : Prop :=
  ∀ st : Status,
    st.word.toNat % 4 = st.state.code ∧
    ((st.state = .running → st.word.toNat % 4 = 0) ∧ (st.state = .halted → st.word.toNat % 4 = 1) ∧
      (st.state = .faulted → st.word.toNat % 4 = 2)) ∧
    st.word.toNat / 4 % 4 = 0 ∧
    st.word.toNat / 16 % 16 = faultCodeNumber st.faultCode ∧
    ((st.faultCode = none → st.word.toNat / 16 % 16 = 0) ∧
      (st.faultCode = some .decodeError → st.word.toNat / 16 % 16 = 1) ∧
      (st.faultCode = some .operandError → st.word.toNat / 16 % 16 = 2) ∧
      (st.faultCode = some .outOfBoundsError → st.word.toNat / 16 % 16 = 3) ∧
      (st.faultCode = some .starvationError → st.word.toNat / 16 % 16 = 4) ∧
      (st.faultCode = some .overflowFault → st.word.toNat / 16 % 16 = 5) ∧
      (st.faultCode = some .addressFault → st.word.toNat / 16 % 16 = 6) ∧
      (st.faultCode = some .capacityFault → st.word.toNat / 16 % 16 = 7)) ∧
    st.word.toNat / 256 % 8 = st.lastExit.code ∧
    ((st.lastExit = .noCommand → st.word.toNat / 256 % 8 = 0) ∧ (st.lastExit = .halted → st.word.toNat / 256 % 8 = 1) ∧
      (st.lastExit = .needInput → st.word.toNat / 256 % 8 = 2) ∧ (st.lastExit = .output → st.word.toNat / 256 % 8 = 3) ∧
      (st.lastExit = .fault → st.word.toNat / 256 % 8 = 4) ∧ (st.lastExit = .stepped → st.word.toNat / 256 % 8 = 5)) ∧
    (st.busy = none → st.word.toNat / 2048 % 2 = 0) ∧ (st.busy ≠ none → st.word.toNat / 2048 % 2 = 1) ∧
    st.word.toNat / 4096 = 0

/-- STATE moves only from Running to Halted, by `halt`, and from Running to Faulted; Halted and Faulted are final; and
`is_done`, that is `IP < 0`, holds exactly in STATE Halted (10_state.md, section 3; the spec marks the last as derived). -/
def Obligations.StateMovesOnlyAsStated : Prop :=
  ∀ s t : State, Inv s → step s = .next t →
    (t.status.state = s.status.state ∨
      (s.status.state = .running ∧ t.status.state = .halted ∧
        ∃ m1 m2 m3, decodeAtIp s = .ok (.halt m1 m2 m3)) ∨
      (s.status.state = .running ∧ t.status.state = .faulted)) ∧
    (t.isDone ↔ t.status.state = .halted) ∧ (t.isDone ↔ t.ip < 0)

/-- R30: FAULT_CODE, over one pass of any command (one step of the core at most) and over every host operation. -/
def Obligations.FaultCodeIsSetOnceAndKept : Prop :=
  ∀ (c : Command) (s t : State) (r : Option Reply), Inv s → turn c s = .next (r, t) →
    (t.status.state ≠ .faulted → t.status.word.toNat / 16 % 16 = 0) ∧
    (s.status.state = .running → t.status.state = .faulted →
      ∃ f, firstFailure s.stepChecks = some f ∧ t.status.faultCode = some f.kind ∧
        (f.kind = .decodeError → t.status.word.toNat / 16 % 16 = 1) ∧
        (f.kind = .operandError → t.status.word.toNat / 16 % 16 = 2) ∧
        (f.kind = .outOfBoundsError → t.status.word.toNat / 16 % 16 = 3) ∧
        (f.kind = .starvationError → t.status.word.toNat / 16 % 16 = 4) ∧
        (f.kind = .overflowFault → t.status.word.toNat / 16 % 16 = 5) ∧
        (f.kind = .addressFault → t.status.word.toNat / 16 % 16 = 6) ∧
        (f.kind = .capacityFault → t.status.word.toNat / 16 % 16 = 7)) ∧
    (∀ k, s.status.faultCode = some k → t.status.faultCode = some k ∧ t.fr = s.fr) ∧
    ∀ op : HostOp, (hostOp op s).2.status.faultCode = s.status.faultCode ∧ (hostOp op s).2.fr = s.fr

/-- R120: a step on a core that is not Running executes nothing; `step()` then writes LAST_EXIT alone, and reports the halt or
the recorded fault again. -/
def Obligations.StepOfAStoppedCoreChangesNothing : Prop :=
  ∀ s : State,
    (s.status.state = .halted → coreStep s = .next s ∧
      (s.Idle → Returns .step s .halted { s with status := { s.status with lastExit := .halted } })) ∧
    (s.status.state = .faulted → coreStep s = .next s ∧
      (s.Idle → Returns .step s (.fault s.status.faultCode) { s with status := { s.status with lastExit := .fault } }))

/-! ## Memory -/

/-- MemWrite (20_memory.md, section 2). That the memory is, and stays, in a canonical form (`Memory.wf`, in the premise and in
the last clause on the memory written) is the model's representation of M: assumption log, entry 7. -/
def Obligations.MemWriteMakesTheWord : Prop :=
  ∀ (s : State) (a v : Int) (k : Fin 4), s.mem.wf →
    (∀ t, memWrite a v k s = .ok () t →
      t.mem.read a = v ∧ t.mem.Present a ∧ t.mem.wf ∧
      ∀ b, b ≠ a → t.mem.read b = s.mem.read b ∧ (t.mem.Present b ↔ s.mem.Present b)) ∧
    (∀ f t, memWrite a v k s = .raise f t → t = s ∧ ∃ cap, s.cfg.memCapacity = some cap)

/-- R60: MEM_CAPACITY caps the count of present addresses. -/
def Obligations.MemWriteFailsOnlyWhereMemoryIsFull : Prop :=
  Config.standard.memCapacity = none ∧ ∀ (s : State) (a v : Int) (k : Fin 4), s.mem.wf →
    (∃ present : List Int, present.Nodup ∧ present.length = s.mem.count ∧ ∀ b, b ∈ present ↔ s.mem.Present b) ∧
    (s.cfg.memCapacity = none → ∃ t, memWrite a v k s = .ok () t) ∧
    (s.mem.Present a → ∃ t, memWrite a v k s = .ok () t) ∧
    (∀ cap, s.cfg.memCapacity = some cap → ¬s.mem.Present a → cap ≤ s.mem.count →
      memWrite a v k s = .raise ⟨.capacityFault, k, 1⟩ s) ∧
    (∀ cap, s.cfg.memCapacity = some cap → s.mem.count < cap → ∃ t, memWrite a v k s = .ok () t) ∧
    ∀ cap (program : List Int), s.cfg.memCapacity = some cap → cap < program.length →
      construct s.cfg program = none

/-- The model's own form of memory (assumption log, entry 7, DESIGN CHOICE; the spec does not give it): the canonical form lists
a partial map from address to Word (10_state.md, section 4) in one way only. -/
def Obligations.EqualContentsAreEqualMemories : Prop :=
  ∀ m n : Memory, m.wf → n.wf → (∀ a, m.read a = n.read a) → (∀ a, m.Present a ↔ n.Present a) → m = n

/-- R59: negative effective addresses under both values of NEG_ADDR_POLICY, the valid addresses `0 .. WORD_MAX`, and fetch
addresses. -/
def Obligations.NegativeAddressFaultsOrIsAKey : Prop :=
  (∀ (s : State) (p v a : Int) (m : Mode) (k : Fin 4),
    (m = .position ∧ a = p ∨ m = .relative ∧ a = p + s.rb ∧ s.cfg.IsWord a) → a < 0 →
      (s.cfg.negAddrPolicy = .fault →
        load p m k s = .raise ⟨.addressFault, k, a⟩ s ∧ store p v m k s = .raise ⟨.addressFault, k, a⟩ s) ∧
      (s.cfg.negAddrPolicy = .map →
        load p m k s = .ok (s.mem.read a) s ∧ store p v m k s = memWrite a v k s)) ∧
  (∀ (s : State) (p v a : Int) (m : Mode) (k : Fin 4),
    (m = .position ∧ a = p ∨ m = .relative ∧ a = p + s.rb) → 0 ≤ a → a ≤ s.cfg.wordMax →
      load p m k s = .ok (s.mem.read a) s ∧ store p v m k s = memWrite a v k s) ∧
  ∀ s : State, Inv s → s.Running → 0 ≤ s.ip

/-- Relative mode adds RB, before and after RB is changed (20_memory.md section 4 and 44_relative_base.md, whose second rule
the spec marks as derived): after `force_rb(b)` and after a completed `adjust_relative_base`, a relative load of `k` is the
position load of `k + RB`. -/
def Obligations.RelativeLoadIsPositionLoadAtRb : Prop :=
  (∀ (s : State) (b k : Int) (n : Fin 4), s.cfg.IsWord b → s.cfg.IsWord (k + b) →
    (forceRb b s).2.rb = b ∧
    load k .relative n (forceRb b s).2 = load (k + b) .position n (forceRb b s).2) ∧
  ∀ (m1 m2 m3 : Mode) (s t : State) (k : Int) (n : Fin 4), s.cfg.Valid → s.Running →
    exec (.adjustRelativeBase m1 m2 m3) s = .next t → t.status.state ≠ .faulted → s.cfg.IsWord (k + t.rb) →
      t.rb = s.rb + s.operand m1 1 ∧ load k .relative n t = load (k + t.rb) .position n t

/-! ## The execution cycle -/

/-- A step runs the decoded instruction. On an idle core the model's step is the host command `step()` (the model's choice:
assumption log, entry 4); on an idle Running core it is therefore BUSY <- 1, the instruction, LAST_EXIT and BUSY <- 0. In a
run command whose loop goes on: the instruction, and nothing around it. -/
def Obligations.StepRunsTheDecodedInstruction : Prop :=
  (∀ (s t : State) (r : Reply), Returns .step s r t → step s = .next t) ∧
  ∀ (s : State) (i : Instr), s.Running → decode s.cfg.highDigitPolicy (s.mem.read s.ip) = .ok i →
    (s.Idle → ∀ t, exec i { s with status := { s.status with busy := some .step } } = .next t →
      step s = .next { t with status := t.status.afterStepCommand }) ∧
    (∀ c, s.status.busy = some c → c ≠ .step → loopDecision c s = none → step s = exec i s)

/-- The step always answers a next state: no fault of the model, no refusal. That every fault of the core is taken as a next
state is DEDUCED (assumption log, entry 5), and so is that `exec` on a core that is not Running answers the state unchanged
(entry 9): the model's reading of 60_exceptions.md, section 2, and 40_execution.md, section 4. -/
def Obligations.EveryStepAnswersANextState : Prop :=
  ∀ s : State, (∃ t, step s = .next t) ∧ ∀ i, ∃ t, exec i s = .next t

/-- A word that does not decode (40_execution.md section 2, where the spec marks the rule as derived, and the row DecodeError
of 60_exceptions.md section 2). -/
def Obligations.DecodeErrorLeavesIpAdvanced : Prop :=
  ∀ (s : State) (e : DecodeErr), s.Running → s.cfg.IsWord (s.ip + 1) → decodeAtIp s = .error e →
    coreStep s = .next (State.faultedBy { s with ip := s.ip + 1 } .decodeError
      ⟨s.ip, s.mem.read s.ip,
        match e with
        | .badMode k => k
        | _ => 0,
        match e with
        | .negativeWord => 1
        | .highDigits => 2
        | .badOpcode => 3
        | .badMode _ => 4⟩)

/-- A step raises the fault of the first check that fails, in the order of the table of 60_exceptions.md section 3, and none
where none fails. Where that order leaves a choice, the spec says that the choice is its decision D24. -/
def Obligations.StepRaisesTheFirstFailingCheck : Prop :=
  ∀ s t : State, s.cfg.Valid → s.Running → coreStep s = .next t →
    (firstFailure s.stepChecks = none → t.status.state ≠ .faulted ∧ t.status.faultCode = s.status.faultCode ∧ t.fr = s.fr) ∧
    ∀ f, firstFailure s.stepChecks = some f → RecordsFault s t f

/-- What a fault leaves (60_exceptions.md section 2, where the spec marks the rule as derived): IP advanced over the Words
read, and for a `read_input` that faulted at its store IQ without its front entry. Nothing else but STATE, FAULT_CODE and FR
differs. -/
def Obligations.FaultLeavesOnlyIncrementsAndThePop : Prop :=
  ∀ s t : State, s.cfg.Valid → s.Running → coreStep s = .next t → t.status.state = .faulted →
    t.cfg = s.cfg ∧ t.rb = s.rb ∧ t.mem = s.mem ∧ t.oq = s.oq ∧
    t.status.lastExit = s.status.lastExit ∧ t.status.busy = s.status.busy ∧
    (∃ j : Nat, t.ip = s.ip + j ∧ (j ≤ 1 ∨ ∃ i, decodeAtIp s = .ok i ∧ j ≤ i.length)) ∧
    (t.iq = s.iq ∨ ∃ x m1 m2 m3, decodeAtIp s = .ok (.readInput m1 m2 m3) ∧ s.iq = x :: t.iq ∧ t.ip = s.ip + 2)

/-- The new IP of a completed step is the address past the instruction, but for a taken jump, which sets IP to its target, and
`halt`, which sets it to the sentinel (40_execution.md section 3, where the spec marks the rule as derived). -/
def Obligations.CompletedStepMovesIpPastTheInstruction : Prop :=
  ∀ (s t : State) (i : Instr), s.cfg.Valid → s.Running → decodeAtIp s = .ok i → coreStep s = .next t →
    t.status.state ≠ .faulted →
    (∀ m1 m2 m3, i = .jumpIfTrue m1 m2 m3 →
      (s.operand m1 1 ≠ 0 → t.ip = s.operand m2 2) ∧ (s.operand m1 1 = 0 → t.ip = s.ip + 3)) ∧
    (∀ m1 m2 m3, i = .jumpIfFalse m1 m2 m3 →
      (s.operand m1 1 = 0 → t.ip = s.operand m2 2) ∧ (s.operand m1 1 ≠ 0 → t.ip = s.ip + 3)) ∧
    (∀ m1 m2 m3, i = .halt m1 m2 m3 → t.ip = s.cfg.haltSentinel) ∧
    (opcodeOf i ∉ [5, 6, 99] → t.ip = s.ip + 1 + i.nparams)

/-- R117: IP becomes negative by `halt` alone; the taken jump that would make it negative raises OutOfBoundsError and leaves
IP unwritten. -/
def Obligations.OnlyHaltMakesIpNegative : Prop :=
  ∀ s t : State, Inv s → s.Running → coreStep s = .next t →
    (t.ip < 0 → ∃ m1 m2 m3, decodeAtIp s = .ok (.halt m1 m2 m3)) ∧
    (t.status.faultCode = some .outOfBoundsError →
      t.ip = s.ip + 3 ∧ t.fr.faultParam = 2 ∧ t.fr.faultValue < 0 ∧
      ((∃ m1 m2 m3, decodeAtIp s = .ok (.jumpIfTrue m1 m2 m3) ∧ s.operand m1 1 ≠ 0 ∧
          t.fr.faultValue = s.operand m2 2) ∨
        ∃ m1 m2 m3, decodeAtIp s = .ok (.jumpIfFalse m1 m2 m3) ∧ s.operand m1 1 = 0 ∧
          t.fr.faultValue = s.operand m2 2)) ∧
    ∀ m1 m2 m3 : Mode, s.Fits 3 → s.CanLoad m1 1 → s.CanLoad m2 2 → s.operand m2 2 < 0 →
      (decodeAtIp s = .ok (.jumpIfTrue m1 m2 m3) ∧ s.operand m1 1 ≠ 0 ∨
        decodeAtIp s = .ok (.jumpIfFalse m1 m2 m3) ∧ s.operand m1 1 = 0) →
      t.status.faultCode = some .outOfBoundsError ∧ t.ip = s.ip + 3

/-- R24: IP never wraps. -/
def Obligations.IpNeverWraps : Prop :=
  (∀ (s : State) (k : Fin 4), s.ip = s.cfg.wordMax → fetchWord k s = .raise ⟨.overflowFault, k, 1⟩ s) ∧
  (∀ s : State, s.Running → s.ip = s.cfg.wordMax →
    coreStep s = .next (s.faultedBy .overflowFault ⟨s.ip, s.mem.read s.ip, 0, 1⟩)) ∧
  (∀ s t : State, Inv s → s.Running → coreStep s = .next t → t.ip < 0 →
    ∃ m1 m2 m3, decodeAtIp s = .ok (.halt m1 m2 m3)) ∧
  ∀ s : State, Inv s → s.Running → 0 ≤ s.ip ∧ s.ip ≤ s.cfg.wordMax

/-! ## The ten instructions: where each completes, and what it then leaves -/

/-- `add` (41_arithmetic.md section 2). -/
def Obligations.AddCompletes : Prop :=
  ∀ (m1 m2 m3 : Mode) (s : State), s.Running → s.Fits 4 → s.CanLoad m1 1 → s.CanLoad m2 2 →
    s.cfg.IsWord (s.operand m1 1 + s.operand m2 2) → s.CanStore m3 3 →
    exec (.add m1 m2 m3) s = .next { s with
      ip := s.ip + 4
      mem := s.mem.write (s.operandAddr m3 3) (s.operand m1 1 + s.operand m2 2) }

/-- `multiply` (41_arithmetic.md section 2). -/
def Obligations.MultiplyCompletes : Prop :=
  ∀ (m1 m2 m3 : Mode) (s : State), s.Running → s.Fits 4 → s.CanLoad m1 1 → s.CanLoad m2 2 →
    s.cfg.IsWord (s.operand m1 1 * s.operand m2 2) → s.CanStore m3 3 →
    exec (.multiply m1 m2 m3) s = .next { s with
      ip := s.ip + 4
      mem := s.mem.write (s.operandAddr m3 3) (s.operand m1 1 * s.operand m2 2) }

/-- `less_than` (41_arithmetic.md section 2): the comparison never overflows. -/
def Obligations.LessThanCompletes : Prop :=
  ∀ (m1 m2 m3 : Mode) (s : State), s.cfg.Valid → s.Running → s.Fits 4 → s.CanLoad m1 1 → s.CanLoad m2 2 →
    s.CanStore m3 3 →
    exec (.lessThan m1 m2 m3) s = .next { s with
      ip := s.ip + 4
      mem := s.mem.write (s.operandAddr m3 3) (if s.operand m1 1 < s.operand m2 2 then 1 else 0) }

/-- `equals` (41_arithmetic.md section 2): the comparison never overflows. -/
def Obligations.EqualsCompletes : Prop :=
  ∀ (m1 m2 m3 : Mode) (s : State), s.cfg.Valid → s.Running → s.Fits 4 → s.CanLoad m1 1 → s.CanLoad m2 2 →
    s.CanStore m3 3 →
    exec (.equals m1 m2 m3) s = .next { s with
      ip := s.ip + 4
      mem := s.mem.write (s.operandAddr m3 3) (if s.operand m1 1 = s.operand m2 2 then 1 else 0) }

/-- `read_input` (42_io.md section 1). -/
def Obligations.ReadInputCompletes : Prop :=
  ∀ (m1 m2 m3 : Mode) (s : State) (x : Int) (rest : List Int), s.Running → s.Fits 2 → s.iq = x :: rest →
    s.CanStore m1 1 →
    exec (.readInput m1 m2 m3) s = .next { s with
      ip := s.ip + 2
      iq := rest
      mem := s.mem.write (s.operandAddr m1 1) x }

/-- `write_output` (42_io.md section 1). -/
def Obligations.WriteOutputCompletes : Prop :=
  ∀ (m1 m2 m3 : Mode) (s : State), s.Running → s.Fits 2 → s.CanLoad m1 1 →
    (∀ cap, s.cfg.oqCapacity = some cap → s.oq.length < cap) →
    exec (.writeOutput m1 m2 m3) s = .next { s with ip := s.ip + 2, oq := s.oq ++ [s.operand m1 1] }

/-- `jump_if_true` (43_control.md section 1). -/
def Obligations.JumpIfTrueCompletes : Prop :=
  ∀ (m1 m2 m3 : Mode) (s : State), s.cfg.Valid → s.Running → s.Fits 3 → s.CanLoad m1 1 → s.CanLoad m2 2 →
    (s.operand m1 1 ≠ 0 → 0 ≤ s.operand m2 2 →
      exec (.jumpIfTrue m1 m2 m3) s = .next { s with ip := s.operand m2 2 }) ∧
    (s.operand m1 1 = 0 → exec (.jumpIfTrue m1 m2 m3) s = .next { s with ip := s.ip + 3 })

/-- `jump_if_false` (43_control.md section 1). -/
def Obligations.JumpIfFalseCompletes : Prop :=
  ∀ (m1 m2 m3 : Mode) (s : State), s.cfg.Valid → s.Running → s.Fits 3 → s.CanLoad m1 1 → s.CanLoad m2 2 →
    (s.operand m1 1 = 0 → 0 ≤ s.operand m2 2 →
      exec (.jumpIfFalse m1 m2 m3) s = .next { s with ip := s.operand m2 2 }) ∧
    (s.operand m1 1 ≠ 0 → exec (.jumpIfFalse m1 m2 m3) s = .next { s with ip := s.ip + 3 })

/-- `adjust_relative_base` (44_relative_base.md). -/
def Obligations.AdjustRelativeBaseCompletes : Prop :=
  ∀ (m1 m2 m3 : Mode) (s : State), s.Running → s.Fits 2 → s.CanLoad m1 1 → s.cfg.IsWord (s.rb + s.operand m1 1) →
    exec (.adjustRelativeBase m1 m2 m3) s = .next { s with ip := s.ip + 2, rb := s.rb + s.operand m1 1 }

/-- `halt` (43_control.md section 2); the value of the sentinel is the instance's parameter. -/
def Obligations.HaltCompletes : Prop :=
  ∀ (m1 m2 m3 : Mode) (s : State), s.cfg.Valid → s.Running → s.cfg.IsWord (s.ip + 1) →
    exec (.halt m1 m2 m3) s =
      .next { s with ip := s.cfg.haltSentinel, status := { s.status with state := .halted } } ∧
    s.cfg.haltSentinel < 0

/-! ## Where the instructions trap -/

/-- R89: a destination in immediate mode decodes, and the instruction runs up to its store, which raises OperandError: at P3 of
the four arithmetic instructions and at P1 of `read_input`, which has then popped IQ. -/
def Obligations.ImmediateDestinationFaultsAtItsStore : Prop :=
  (∀ (b : Binary) (policy : HighDigitPolicy) (m1 m2 : Mode),
    decode policy (encode (b.instr m1 m2 .immediate)) = .ok (b.instr m1 m2 .immediate)) ∧
  (∀ (policy : HighDigitPolicy) (m2 m3 : Mode),
    decode policy (encode (.readInput .immediate m2 m3)) = .ok (.readInput .immediate m2 m3)) ∧
  (∀ policy : HighDigitPolicy, decode policy 11101 = .ok (.add .immediate .immediate .immediate)) ∧
  (∀ (b : Binary) (m1 m2 : Mode) (s : State), s.Running → s.Fits 4 → s.CanLoad m1 1 → s.CanLoad m2 2 →
    s.cfg.IsWord (b.result (s.operand m1 1) (s.operand m2 2)) →
    exec (b.instr m1 m2 .immediate) s = .next (State.faultedBy { s with ip := s.ip + 4 } .operandError
      ⟨s.ip, s.mem.read s.ip, 3, s.param 3⟩)) ∧
  ∀ (m2 m3 : Mode) (s : State) (x : Int) (rest : List Int), s.Running → s.Fits 2 → s.iq = x :: rest →
    exec (.readInput .immediate m2 m3) s =
      .next (State.faultedBy { s with ip := s.ip + 2, iq := rest } .operandError
        ⟨s.ip, s.mem.read s.ip, 1, s.param 1⟩)

/-- A result outside the Word range is never wrapped: `add`, `multiply` and `adjust_relative_base` raise OverflowFault with
FAULT_PARAM 0, and neither memory nor RB is written (41_arithmetic.md sections 1 and 3, 44_relative_base.md). -/
def Obligations.ResultOutsideTheWordRangeFaults : Prop :=
  (∀ (b : Binary) (m1 m2 m3 : Mode) (s : State), s.Running → s.Fits 4 → s.CanLoad m1 1 → s.CanLoad m2 2 →
    ¬s.cfg.IsWord (b.result (s.operand m1 1) (s.operand m2 2)) →
    exec (b.instr m1 m2 m3) s = .next (State.faultedBy { s with ip := s.ip + 4 } .overflowFault
      ⟨s.ip, s.mem.read s.ip, 0, 3⟩)) ∧
  ∀ (m1 m2 m3 : Mode) (s : State), s.Running → s.Fits 2 → s.CanLoad m1 1 →
    ¬s.cfg.IsWord (s.rb + s.operand m1 1) →
    exec (.adjustRelativeBase m1 m2 m3) s = .next (State.faultedBy { s with ip := s.ip + 2 } .overflowFault
      ⟨s.ip, s.mem.read s.ip, 0, 3⟩)

/-- R244: StarvationError is raised by `read_input`, after its parameter word has been read, when IQ is empty, and by nothing
else. -/
def Obligations.ReadInputStarvesOnAnEmptyQueue : Prop :=
  (∀ (m1 m2 m3 : Mode) (s : State), s.Running → s.Fits 2 → s.iq = [] →
    exec (.readInput m1 m2 m3) s = .next (State.faultedBy { s with ip := s.ip + 2 } .starvationError
      ⟨s.ip, s.mem.read s.ip, 1, 0⟩)) ∧
  ∀ s t : State, Inv s → s.Running → coreStep s = .next t → t.status.faultCode = some .starvationError →
    s.iq = [] ∧ ∃ m1 m2 m3, decodeAtIp s = .ok (.readInput m1 m2 m3)

/-- A jump's target is the loaded value of P2; a taken jump goes there, or, where the value is negative (the sentinel's
value among them), raises OutOfBoundsError with IP at A + 3
(43_control.md section 1). -/
def Obligations.TakenJumpGoesToItsTargetOrFaults : Prop :=
  ∀ (m1 m2 m3 : Mode) (s : State), s.cfg.Valid → s.Running → s.Fits 3 → s.CanLoad m1 1 → s.CanLoad m2 2 →
    0 ≤ s.ip →
    ∀ i : Instr, (i = .jumpIfTrue m1 m2 m3 ∧ s.operand m1 1 ≠ 0) ∨ (i = .jumpIfFalse m1 m2 m3 ∧ s.operand m1 1 = 0) →
      (0 ≤ s.operand m2 2 → exec i s = .next { s with ip := s.operand m2 2 }) ∧
      (s.operand m2 2 < 0 → ∃ t, exec i s = .next t ∧ ¬t.isDone ∧
        t = State.faultedBy { s with ip := s.ip + 3 } .outOfBoundsError
          ⟨s.ip, s.mem.read s.ip, 2, s.operand m2 2⟩)

/-! ## What the instructions leave unchanged -/

/-- The frame of `add`, `multiply`, `less_than` and `equals`: the one address written is the one `resolve_addr` gives for
parameter 3 (40_execution.md section 3). -/
def Obligations.FrameOfTheFourArithmeticInstructions : Prop :=
  ∀ (b : Binary) (m1 m2 m3 : Mode) (s t : State), s.cfg.Valid → exec (b.instr m1 m2 m3) s = .next t →
    t.cfg = s.cfg ∧ t.rb = s.rb ∧ t.iq = s.iq ∧ t.oq = s.oq ∧
    t.status.lastExit = s.status.lastExit ∧ t.status.busy = s.status.busy ∧
    (t.status.state ≠ .faulted → t.status = s.status ∧ t.fr = s.fr) ∧
    (∀ a, resolveAddr s.cfg s.rb (s.param 3) m3 3 = .ok a → ∀ x, x ≠ a → t.mem.read x = s.mem.read x) ∧
    (∀ f, resolveAddr s.cfg s.rb (s.param 3) m3 3 = .error f → t.mem = s.mem) ∧
    (m3 = .immediate ∨ t.status.state = .faulted → t.mem = s.mem)

/-- The frame of `read_input`: the one address written is the one `resolve_addr` gives for parameter 1 (40_execution.md
section 3, 42_io.md section 1). -/
def Obligations.FrameOfReadInput : Prop :=
  ∀ (m1 m2 m3 : Mode) (s t : State), s.cfg.Valid → exec (.readInput m1 m2 m3) s = .next t →
    t.cfg = s.cfg ∧ t.rb = s.rb ∧ t.oq = s.oq ∧ (t.iq = s.iq ∨ t.iq = s.iq.tail) ∧
    t.status.lastExit = s.status.lastExit ∧ t.status.busy = s.status.busy ∧
    (t.status.state ≠ .faulted → t.status = s.status ∧ t.fr = s.fr) ∧
    (∀ a, resolveAddr s.cfg s.rb (s.param 1) m1 1 = .ok a → ∀ x, x ≠ a → t.mem.read x = s.mem.read x) ∧
    (∀ f, resolveAddr s.cfg s.rb (s.param 1) m1 1 = .error f → t.mem = s.mem) ∧
    (m1 = .immediate ∨ t.status.state = .faulted → t.mem = s.mem)

/-- The frame of the instructions that store nothing: `write_output`, the two jumps, `adjust_relative_base` and `halt`
(40_execution.md section 3). Memory, IQ, LAST_EXIT, BUSY and the parameters never change; OQ changes by `write_output` alone,
RB by `adjust_relative_base` alone, STATE without a fault by `halt` alone. -/
def Obligations.FrameOfTheInstructionsThatStoreNothing : Prop :=
  ∀ (m1 m2 m3 : Mode) (s t : State) (i : Instr), s.cfg.Valid →
    i ∈ [Instr.writeOutput m1 m2 m3, .jumpIfTrue m1 m2 m3, .jumpIfFalse m1 m2 m3, .adjustRelativeBase m1 m2 m3,
      .halt m1 m2 m3] →
    exec i s = .next t →
    t.cfg = s.cfg ∧ t.mem = s.mem ∧ (∀ a, t.mem.read a = s.mem.read a) ∧ t.iq = s.iq ∧
    t.status.lastExit = s.status.lastExit ∧ t.status.busy = s.status.busy ∧
    (i ≠ .writeOutput m1 m2 m3 → t.oq = s.oq) ∧
    (i ≠ .adjustRelativeBase m1 m2 m3 → t.rb = s.rb) ∧
    (t.status.state ≠ .faulted → t.fr = s.fr ∧ t.status.faultCode = s.status.faultCode ∧
      (i ≠ .halt m1 m2 m3 → t.status = s.status))

/-- A store is seen by the very next fetch (20_memory.md section 5): after a completed `add`, `multiply`, `less_than`, `equals` or
`read_input`, the address stored to reads as the value stored, and if it is the next IP, the next instruction is what that
value decodes to. -/
def Obligations.NextFetchSeesTheStore : Prop :=
  (∀ (b : Binary) (m1 m2 m3 : Mode) (s t : State), Inv s → s.Running → exec (b.instr m1 m2 m3) s = .next t →
    t.status.state ≠ .faulted →
    t.mem.read (s.operandAddr m3 3) = b.result (s.operand m1 1) (s.operand m2 2) ∧
    (s.operandAddr m3 3 = s.ip + 4 →
      decodeAtIp t = decode s.cfg.highDigitPolicy (b.result (s.operand m1 1) (s.operand m2 2)))) ∧
  ∀ (m1 m2 m3 : Mode) (s t : State) (x : Int) (rest : List Int), Inv s → s.Running → s.iq = x :: rest →
    exec (.readInput m1 m2 m3) s = .next t → t.status.state ≠ .faulted →
    t.mem.read (s.operandAddr m1 1) = x ∧
    (s.operandAddr m1 1 = s.ip + 2 → decodeAtIp t = decode s.cfg.highDigitPolicy x)

/-! ## The host interface and the run commands -/

/-- R216: `step()`. -/
def Obligations.StepCommandReturnsItsOutcome : Prop :=
  ∀ s : State, s.Idle →
    ∃ u r t, coreStep { s with status := { s.status with busy := some .step } } = .next u ∧
      Returns .step s r t ∧
      t = { u with status := { u.status with lastExit := t.status.lastExit, busy := none } } ∧
      (u.status.state = .running ∧ r = .running ∧ t.status.lastExit.code = 5 ∨
        u.status.state = .halted ∧ r = .halted ∧ t.status.lastExit.code = 1 ∨
        u.status.state = .faulted ∧ r = .fault u.status.faultCode ∧ t.status.lastExit.code = 4)

/-- `run_to_end` returns only when the core is halted or faulted, and at once where it already is halted (48_run_protocol.md
section 2). -/
def Obligations.RunToEndReturnsHaltedOrFaulted : Prop :=
  (∀ (s t : State) (r : Reply), Returns .runToEnd s r t →
    t.Idle ∧
    (r = .halted ∧ t.ip < 0 ∧ t.status.lastExit.code = 1 ∨
      r = .fault t.status.faultCode ∧ t.status.state = .faulted ∧ t.status.lastExit.code = 4)) ∧
  ∀ s : State, s.Idle → s.status.state = .halted → s.ip < 0 →
    Returns .runToEnd s .halted { s with status := { s.status with lastExit := .halted } }

/-- `run_while_input` never raises StarvationError; it returns `NeedInput` before a `read_input` with IQ empty, without
changing anything (48_run_protocol.md section 2). -/
def Obligations.RunWhileInputNeverStarves : Prop :=
  (∀ (s t : State) (r : Reply), s.cfg.Valid → s.Running → Returns .runWhileInput s r t →
    r ≠ .fault (some .starvationError) ∧
    (r = .needInput → t.iq = [] ∧ t.Running ∧ t.status.lastExit.code = 2 ∧
      ∃ m1 m2 m3, decodeAtIp t = .ok (.readInput m1 m2 m3))) ∧
  ∀ (s : State) (m1 m2 m3 : Mode), s.Idle → s.Running → 0 ≤ s.ip → s.iq = [] →
    decodeAtIp s = .ok (.readInput m1 m2 m3) →
    Returns .runWhileInput s .needInput { s with status := { s.status with lastExit := .needInput } }

/-- `run_until_output` takes one entry: the oldest, without a step, where OQ is not empty at the start; else the one entry that
its last step, a `write_output`, has produced. It returns `None` where the core is done and OQ is empty (48_run_protocol.md
section 2). -/
def Obligations.RunUntilOutputTakesOneEntry : Prop :=
  (∀ (s : State) (v : Int) (rest : List Int), s.Idle → s.status.state ≠ .faulted → s.oq = v :: rest →
    Returns .runUntilOutput s (.output v)
      { s with oq := rest, status := { s.status with lastExit := .output } }) ∧
  (∀ (s t : State) (r : Reply), s.cfg.Valid → s.oq = [] → Returns .runUntilOutput s r t →
    (∃ (n : Nat) (u w : State) (m1 m2 m3 : Mode),
      u = (accept .runUntilOutput s).afterSteps n ∧ u.Running ∧ u.oq = [] ∧
      decodeAtIp u = .ok (.writeOutput m1 m2 m3) ∧ coreStep u = .next w ∧ w.oq = [u.operand m1 1] ∧
      r = .output (u.operand m1 1) ∧
      t = { w with oq := [], status := { w.status with lastExit := .output, busy := none } }) ∨
    (r = .noOutput ∧ t.oq = [] ∧ t.ip < 0 ∧ t.status.lastExit.code = 1) ∨
    (r = .fault t.status.faultCode ∧ t.status.state = .faulted ∧ t.status.lastExit.code = 4))

/-- `step()` never hangs. A run command hangs exactly where no state its steps reach stops it: for `run_to_end` a faulted state
or one with IP negative; for `run_while_input` these and one at a `read_input` with IQ empty; for `run_until_output` a faulted
state, one with IP negative and one with OQ not empty. And a command has at most one result (48_run_protocol.md section 2). -/
def Obligations.CommandReturnsOnceOrHangs : Prop :=
  (∀ s : State, s.Idle → (∃ r t, Returns .step s r t) ∧ ¬Hangs .step s) ∧
  (∀ s : State, s.Idle → (Hangs .runToEnd s ↔ ∀ n,
    ((accept .runToEnd s).afterSteps n).status.state ≠ .faulted ∧ 0 ≤ ((accept .runToEnd s).afterSteps n).ip)) ∧
  (∀ s : State, s.Idle → (Hangs .runWhileInput s ↔ ∀ n,
    ((accept .runWhileInput s).afterSteps n).status.state ≠ .faulted ∧
    0 ≤ ((accept .runWhileInput s).afterSteps n).ip ∧
    ¬(((accept .runWhileInput s).afterSteps n).iq = [] ∧
      ∃ m1 m2 m3, decodeAtIp ((accept .runWhileInput s).afterSteps n) = .ok (.readInput m1 m2 m3)))) ∧
  (∀ s : State, s.Idle → (Hangs .runUntilOutput s ↔ ∀ n,
    ((accept .runUntilOutput s).afterSteps n).status.state ≠ .faulted ∧
    0 ≤ ((accept .runUntilOutput s).afterSteps n).ip ∧ ((accept .runUntilOutput s).afterSteps n).oq = [])) ∧
  ∀ (c : Command) (s t t' : State) (r r' : Reply), Returns c s r t → Returns c s r' t' → r = r' ∧ t = t'

/-- A faulted core re-reports the recorded fault to every later command and changes nothing else but LAST_EXIT
(60_exceptions.md section 2). -/
def Obligations.FaultedCoreReReportsItsFault : Prop :=
  ∀ (c : Command) (s : State), s.Idle → s.status.state = .faulted →
    Returns c s (.fault s.status.faultCode) { s with status := { s.status with lastExit := .fault } }

/-- R211: a busy core accepts nothing but `read_status`, which changes no state. -/
def Obligations.BusyCoreAcceptsOnlyReadStatus : Prop :=
  ∀ (op : HostOp) (s : State), ¬s.Idle →
    (op ≠ .readStatus → hostOp op s = (.refused, s)) ∧
    hostOp .readStatus s = (.status s.status.word s.fr, s) ∧
    ∀ (b : Bench) (n : Nat), b.at n = some s →
      b.apply (.clone n) = (.refused, b) ∧ b.apply (.discard n) = (.refused, b)

/-- What the host can write (48_run_protocol.md section 1): never IP, M, FR or the STATE and FAULT_CODE of STATUS; RB by
`force_rb` alone; IQ by appending, OQ by removing its front; and a refused operation changes nothing. And what the operations
that inspect an idle core return, changing nothing (sections 1 and 3): `is_done`, `read_regs`, `peek_queues`, `read_status` and
`read_mem`, which is refused for a negative address under `NEG_ADDR_POLICY = fault`. -/
def Obligations.HostWritesOnlyWhatItMay : Prop :=
  (∀ (op : HostOp) (s t : State) (r : HostReply), hostOp op s = (r, t) →
    t.cfg = s.cfg ∧ t.ip = s.ip ∧ t.mem = s.mem ∧ t.fr = s.fr ∧
    t.status.state = s.status.state ∧ t.status.faultCode = s.status.faultCode ∧
    t.status.lastExit = s.status.lastExit ∧
    (t.rb = s.rb ∨ op = .forceRb t.rb) ∧
    (t.iq = s.iq ∨ ∃ v, op = .pushInput v ∧ t.iq = s.iq ++ [v]) ∧
    (t.oq = s.oq ∨ ∃ v, op = .popOutput ∧ s.oq = v :: t.oq ∧ r = .popped (some v)) ∧
    (r = .refused → t = s)) ∧
  ∀ s : State, s.Idle →
    hostOp .isDone s = (.done (decide (s.ip < 0)), s) ∧
    hostOp .readRegs s = (.regs s.ip s.rb, s) ∧
    hostOp .peekQueues s = (.queues s.iq s.oq, s) ∧
    hostOp .readStatus s = (.status s.status.word s.fr, s) ∧
    (∀ a, s.cfg.IsWord a → 0 ≤ a ∨ s.cfg.negAddrPolicy = .map →
      hostOp (.readMem a) s = (.word (s.mem.read a), s)) ∧
    ∀ a, a < 0 → s.cfg.negAddrPolicy = .fault → hostOp (.readMem a) s = (.refused, s)

/-- R214, and `push_input` (48_run_protocol.md section 1), in every STATE. -/
def Obligations.PushInputAppendsAndPopOutputTakesTheOldest : Prop :=
  ∀ s : State, s.Idle →
    (∀ v, s.cfg.IsWord v → (∀ cap, s.cfg.iqCapacity = some cap → s.iq.length < cap) →
      hostOp (.pushInput v) s = (.ok, { s with iq := s.iq ++ [v] })) ∧
    (∀ v cap, s.cfg.iqCapacity = some cap → cap ≤ s.iq.length → hostOp (.pushInput v) s = (.refused, s)) ∧
    (s.oq = [] → hostOp .popOutput s = (.popped none, s)) ∧
    (∀ v rest, s.oq = v :: rest → hostOp .popOutput s = (.popped (some v), { s with oq := rest }))

/-- Both queues are first-in first-out on the core's side (42_io.md section 2). -/
def Obligations.CoreTakesTheOldestInputAndAppendsOutputs : Prop :=
  ∀ s t : State, s.cfg.Valid → coreStep s = .next t →
    (t.iq = s.iq ∨ ∃ x, s.iq = x :: t.iq ∧ ∃ m1 m2 m3, decodeAtIp s = .ok (.readInput m1 m2 m3)) ∧
    (t.oq = s.oq ∨ ∃ m1 m2 m3, decodeAtIp s = .ok (.writeOutput m1 m2 m3) ∧ t.oq = s.oq ++ [s.operand m1 1])

/-- R43: instances share nothing: an event leaves every instance it does not act on as it was, and a clone is a new instance
equal to its original, component by component. -/
def Obligations.InstancesShareNothing : Prop :=
  (∀ (b : Bench) (e : BenchEvent) (n : Nat) (s : State), b.at n = some s → e.target ≠ some n →
    (b.apply e).2.at n = some s) ∧
  (∀ (b : Bench) (n : Nat) (s : State), b.at n = some s → s.Idle →
    (b.apply (.clone n)).1 = .newInstance b.length ∧ (b.apply (.clone n)).2.at b.length = some s ∧
    b.at b.length = none)
end

