-- ==== Sys2Proof/Laws/State.lean ====
section
/-!
SUPPORT. One lemma per field per update of the state and of STATUS, so that no proof unfolds a record update.
-/

namespace Sys2Proof.Machine

@[simp] theorem State.setIp_cfg (s : State) (v : Int) : (s.setIp v).cfg = s.cfg := rfl
@[simp] theorem State.setIp_ip (s : State) (v : Int) : (s.setIp v).ip = v := rfl
@[simp] theorem State.setIp_rb (s : State) (v : Int) : (s.setIp v).rb = s.rb := rfl
@[simp] theorem State.setIp_mem (s : State) (v : Int) : (s.setIp v).mem = s.mem := rfl
@[simp] theorem State.setIp_iq (s : State) (v : Int) : (s.setIp v).iq = s.iq := rfl
@[simp] theorem State.setIp_oq (s : State) (v : Int) : (s.setIp v).oq = s.oq := rfl
@[simp] theorem State.setIp_status (s : State) (v : Int) : (s.setIp v).status = s.status := rfl
@[simp] theorem State.setIp_fr (s : State) (v : Int) : (s.setIp v).fr = s.fr := rfl

@[simp] theorem State.setRb_cfg (s : State) (v : Int) : (s.setRb v).cfg = s.cfg := rfl
@[simp] theorem State.setRb_ip (s : State) (v : Int) : (s.setRb v).ip = s.ip := rfl
@[simp] theorem State.setRb_rb (s : State) (v : Int) : (s.setRb v).rb = v := rfl
@[simp] theorem State.setRb_mem (s : State) (v : Int) : (s.setRb v).mem = s.mem := rfl
@[simp] theorem State.setRb_iq (s : State) (v : Int) : (s.setRb v).iq = s.iq := rfl
@[simp] theorem State.setRb_oq (s : State) (v : Int) : (s.setRb v).oq = s.oq := rfl
@[simp] theorem State.setRb_status (s : State) (v : Int) : (s.setRb v).status = s.status := rfl
@[simp] theorem State.setRb_fr (s : State) (v : Int) : (s.setRb v).fr = s.fr := rfl

@[simp] theorem State.setMem_cfg (s : State) (m : Memory) : (s.setMem m).cfg = s.cfg := rfl
@[simp] theorem State.setMem_ip (s : State) (m : Memory) : (s.setMem m).ip = s.ip := rfl
@[simp] theorem State.setMem_rb (s : State) (m : Memory) : (s.setMem m).rb = s.rb := rfl
@[simp] theorem State.setMem_mem (s : State) (m : Memory) : (s.setMem m).mem = m := rfl
@[simp] theorem State.setMem_iq (s : State) (m : Memory) : (s.setMem m).iq = s.iq := rfl
@[simp] theorem State.setMem_oq (s : State) (m : Memory) : (s.setMem m).oq = s.oq := rfl
@[simp] theorem State.setMem_status (s : State) (m : Memory) : (s.setMem m).status = s.status := rfl
@[simp] theorem State.setMem_fr (s : State) (m : Memory) : (s.setMem m).fr = s.fr := rfl

@[simp] theorem State.setIq_cfg (s : State) (q : List Int) : (s.setIq q).cfg = s.cfg := rfl
@[simp] theorem State.setIq_ip (s : State) (q : List Int) : (s.setIq q).ip = s.ip := rfl
@[simp] theorem State.setIq_rb (s : State) (q : List Int) : (s.setIq q).rb = s.rb := rfl
@[simp] theorem State.setIq_mem (s : State) (q : List Int) : (s.setIq q).mem = s.mem := rfl
@[simp] theorem State.setIq_iq (s : State) (q : List Int) : (s.setIq q).iq = q := rfl
@[simp] theorem State.setIq_oq (s : State) (q : List Int) : (s.setIq q).oq = s.oq := rfl
@[simp] theorem State.setIq_status (s : State) (q : List Int) : (s.setIq q).status = s.status := rfl
@[simp] theorem State.setIq_fr (s : State) (q : List Int) : (s.setIq q).fr = s.fr := rfl

@[simp] theorem State.setOq_cfg (s : State) (q : List Int) : (s.setOq q).cfg = s.cfg := rfl
@[simp] theorem State.setOq_ip (s : State) (q : List Int) : (s.setOq q).ip = s.ip := rfl
@[simp] theorem State.setOq_rb (s : State) (q : List Int) : (s.setOq q).rb = s.rb := rfl
@[simp] theorem State.setOq_mem (s : State) (q : List Int) : (s.setOq q).mem = s.mem := rfl
@[simp] theorem State.setOq_iq (s : State) (q : List Int) : (s.setOq q).iq = s.iq := rfl
@[simp] theorem State.setOq_oq (s : State) (q : List Int) : (s.setOq q).oq = q := rfl
@[simp] theorem State.setOq_status (s : State) (q : List Int) : (s.setOq q).status = s.status := rfl
@[simp] theorem State.setOq_fr (s : State) (q : List Int) : (s.setOq q).fr = s.fr := rfl

@[simp] theorem State.setStatus_cfg (s : State) (st : Status) : (s.setStatus st).cfg = s.cfg := rfl
@[simp] theorem State.setStatus_ip (s : State) (st : Status) : (s.setStatus st).ip = s.ip := rfl
@[simp] theorem State.setStatus_rb (s : State) (st : Status) : (s.setStatus st).rb = s.rb := rfl
@[simp] theorem State.setStatus_mem (s : State) (st : Status) : (s.setStatus st).mem = s.mem := rfl
@[simp] theorem State.setStatus_iq (s : State) (st : Status) : (s.setStatus st).iq = s.iq := rfl
@[simp] theorem State.setStatus_oq (s : State) (st : Status) : (s.setStatus st).oq = s.oq := rfl
@[simp] theorem State.setStatus_status (s : State) (st : Status) : (s.setStatus st).status = st := rfl
@[simp] theorem State.setStatus_fr (s : State) (st : Status) : (s.setStatus st).fr = s.fr := rfl

@[simp] theorem State.setFr_cfg (s : State) (r : FaultRecord) : (s.setFr r).cfg = s.cfg := rfl
@[simp] theorem State.setFr_ip (s : State) (r : FaultRecord) : (s.setFr r).ip = s.ip := rfl
@[simp] theorem State.setFr_rb (s : State) (r : FaultRecord) : (s.setFr r).rb = s.rb := rfl
@[simp] theorem State.setFr_mem (s : State) (r : FaultRecord) : (s.setFr r).mem = s.mem := rfl
@[simp] theorem State.setFr_iq (s : State) (r : FaultRecord) : (s.setFr r).iq = s.iq := rfl
@[simp] theorem State.setFr_oq (s : State) (r : FaultRecord) : (s.setFr r).oq = s.oq := rfl
@[simp] theorem State.setFr_status (s : State) (r : FaultRecord) : (s.setFr r).status = s.status := rfl
@[simp] theorem State.setFr_fr (s : State) (r : FaultRecord) : (s.setFr r).fr = r := rfl

@[simp] theorem Status.enterHalted_state (st : Status) : (st.enterHalted).state = .halted := rfl
@[simp] theorem Status.enterHalted_faultCode (st : Status) : (st.enterHalted).faultCode = st.faultCode := rfl
@[simp] theorem Status.enterHalted_lastExit (st : Status) : (st.enterHalted).lastExit = st.lastExit := rfl
@[simp] theorem Status.enterHalted_busy (st : Status) : (st.enterHalted).busy = st.busy := rfl

@[simp] theorem Status.enterFaulted_state (st : Status) (k : FaultKind) : (st.enterFaulted k).state = .faulted := rfl
@[simp] theorem Status.enterFaulted_faultCode (st : Status) (k : FaultKind) : (st.enterFaulted k).faultCode = some k := rfl
@[simp] theorem Status.enterFaulted_lastExit (st : Status) (k : FaultKind) : (st.enterFaulted k).lastExit = st.lastExit := rfl
@[simp] theorem Status.enterFaulted_busy (st : Status) (k : FaultKind) : (st.enterFaulted k).busy = st.busy := rfl

@[simp] theorem Status.accept_state (st : Status) (c : Command) : (st.accept c).state = st.state := rfl
@[simp] theorem Status.accept_faultCode (st : Status) (c : Command) : (st.accept c).faultCode = st.faultCode := rfl
@[simp] theorem Status.accept_lastExit (st : Status) (c : Command) : (st.accept c).lastExit = st.lastExit := rfl
@[simp] theorem Status.accept_busy (st : Status) (c : Command) : (st.accept c).busy = some c := rfl

@[simp] theorem Status.release_state (st : Status) (e : LastExit) : (st.release e).state = st.state := rfl
@[simp] theorem Status.release_faultCode (st : Status) (e : LastExit) : (st.release e).faultCode = st.faultCode := rfl
@[simp] theorem Status.release_lastExit (st : Status) (e : LastExit) : (st.release e).lastExit = e := rfl
@[simp] theorem Status.release_busy (st : Status) (e : LastExit) : (st.release e).busy = none := rfl

/-- What a fault's entry writes, and that it writes nothing else (R248). -/
@[simp] theorem faultEntry_cfg (a w : Int) (f : FaultInfo) (s : State) : (faultEntry a w f s).cfg = s.cfg := rfl
@[simp] theorem faultEntry_ip (a w : Int) (f : FaultInfo) (s : State) : (faultEntry a w f s).ip = s.ip := rfl
@[simp] theorem faultEntry_rb (a w : Int) (f : FaultInfo) (s : State) : (faultEntry a w f s).rb = s.rb := rfl
@[simp] theorem faultEntry_mem (a w : Int) (f : FaultInfo) (s : State) : (faultEntry a w f s).mem = s.mem := rfl
@[simp] theorem faultEntry_iq (a w : Int) (f : FaultInfo) (s : State) : (faultEntry a w f s).iq = s.iq := rfl
@[simp] theorem faultEntry_oq (a w : Int) (f : FaultInfo) (s : State) : (faultEntry a w f s).oq = s.oq := rfl
@[simp] theorem faultEntry_status (a w : Int) (f : FaultInfo) (s : State) : (faultEntry a w f s).status = s.status.enterFaulted f.kind := rfl
@[simp] theorem faultEntry_fr (a w : Int) (f : FaultInfo) (s : State) : (faultEntry a w f s).fr = ⟨a, w, f.param, f.value⟩ := rfl

end Sys2Proof.Machine
end

