-- ==== Sys2Proof/Laws/Memory.lean ====
section
/-!
SUPPORT. The laws of memory (spec/20_memory.md R52, R53, R60): a read after a write, presence, the count, and that every
operation keeps the canonical form.
-/

namespace Sys2Proof.Machine

/-! ## The list of cells -/

theorem readCell_of_not_mem {a : Int} : ∀ {l : List (Int × Int)}, a ∉ l.map Prod.fst → readCell a l = 0
  | [], _ => rfl
  | (b, v) :: rest, h => by
    simp only [List.map_cons, List.mem_cons, not_or] at h
    simp [readCell, h.1, readCell_of_not_mem h.2]

theorem mem_of_readCell_ne {a : Int} {l : List (Int × Int)} (h : readCell a l ≠ 0) : a ∈ l.map Prod.fst := by
  by_contra hn
  exact h (readCell_of_not_mem hn)

theorem readCell_mem {a : Int} : ∀ {l : List (Int × Int)}, a ∈ l.map Prod.fst → (a, readCell a l) ∈ l
  | (b, v) :: rest, h => by
    by_cases hab : a = b
    · simp [readCell, hab]
    · have : a ∈ rest.map Prod.fst := by simpa [hab] using h
      simpa [readCell, hab] using readCell_mem this

@[simp] theorem readCell_insertCell_same (a v : Int) : ∀ l : List (Int × Int), readCell a (insertCell a v l) = v
  | [] => by simp [insertCell, readCell]
  | (b, w) :: rest => by
    unfold insertCell
    split
    · simp [readCell]
    · split
      · simp [readCell]
      · rename_i _ h
        simp [readCell, h, readCell_insertCell_same a v rest]

theorem readCell_insertCell_other {a b : Int} (v : Int) (h : b ≠ a) :
    ∀ l : List (Int × Int), readCell b (insertCell a v l) = readCell b l
  | [] => by simp [insertCell, readCell, h]
  | (c, w) :: rest => by
    unfold insertCell
    split
    · simp [readCell, h]
    · split
      · rename_i _ hc
        subst hc
        simp [readCell, h]
      · simp [readCell, readCell_insertCell_other v h rest]

theorem readCell_eraseCell_other {a b : Int} (h : b ≠ a) :
    ∀ l : List (Int × Int), readCell b (eraseCell a l) = readCell b l
  | [] => rfl
  | (c, w) :: rest => by
    unfold eraseCell
    split
    · rename_i hc
      subst hc
      simp [readCell, h]
    · simp [readCell, readCell_eraseCell_other h rest]

theorem mem_keys_insertCell (a b v : Int) :
    ∀ l : List (Int × Int), b ∈ (insertCell a v l).map Prod.fst ↔ b = a ∨ b ∈ l.map Prod.fst
  | [] => by simp [insertCell]
  | (c, w) :: rest => by
    unfold insertCell
    split
    · simp
    · split
      · rename_i _ hc
        simp [hc]
      · simp only [List.map_cons, List.mem_cons, mem_keys_insertCell a b v rest]
        tauto

theorem mem_insertCell {a v : Int} {e : Int × Int} :
    ∀ {l : List (Int × Int)}, e ∈ insertCell a v l → e = (a, v) ∨ e ∈ l
  | [], h => by simpa [insertCell] using h
  | (c, w) :: rest, h => by
    unfold insertCell at h
    split at h
    · simpa using h
    · split at h
      · rcases List.mem_cons.1 h with h | h
        · exact .inl h
        · exact .inr (List.mem_cons_of_mem _ h)
      · rcases List.mem_cons.1 h with h | h
        · exact .inr (by simp [h])
        · exact (mem_insertCell h).imp id (List.mem_cons_of_mem _)

theorem mem_eraseCell {a : Int} {e : Int × Int} : ∀ {l : List (Int × Int)}, e ∈ eraseCell a l → e ∈ l
  | [], h => h
  | (c, w) :: rest, h => by
    unfold eraseCell at h
    split at h
    · exact List.mem_cons_of_mem _ h
    · rcases List.mem_cons.1 h with h | h
      · simp [h]
      · exact List.mem_cons_of_mem _ (mem_eraseCell h)

theorem mem_keys_eraseCell {a b : Int} {l : List (Int × Int)} (h : b ∈ (eraseCell a l).map Prod.fst) :
    b ∈ l.map Prod.fst := by
  obtain ⟨e, he, rfl⟩ := List.mem_map.1 h
  exact List.mem_map_of_mem (mem_eraseCell he)

theorem mem_keys_eraseCell_other {a b : Int} (hb : b ≠ a) :
    ∀ {l : List (Int × Int)}, b ∈ l.map Prod.fst → b ∈ (eraseCell a l).map Prod.fst
  | (c, w) :: rest, h => by
    simp only [List.map_cons, List.mem_cons] at h
    unfold eraseCell
    split
    · rename_i hc
      exact h.resolve_left fun hbc => hb (hbc.trans hc.symm)
    · exact List.mem_cons.2 (h.imp id (mem_keys_eraseCell_other hb))

theorem insertCell_sorted (a v : Int) :
    ∀ {l : List (Int × Int)}, (l.map Prod.fst).Pairwise (· < ·) → ((insertCell a v l).map Prod.fst).Pairwise (· < ·)
  | [], _ => by simp [insertCell]
  | (b, w) :: rest, h => by
    simp only [List.map_cons, List.pairwise_cons] at h
    unfold insertCell
    split
    · rename_i hab
      simp only [List.map_cons, List.pairwise_cons, List.mem_cons]
      exact ⟨fun c hc => hc.elim (fun e => e ▸ hab) fun hc => lt_trans hab (h.1 c hc), h.1, h.2⟩
    · split
      · rename_i hab
        simp only [List.map_cons, List.pairwise_cons]
        exact ⟨hab ▸ h.1, h.2⟩
      · simp only [List.map_cons, List.pairwise_cons]
        refine ⟨fun c hc => ?_, insertCell_sorted a v h.2⟩
        rcases (mem_keys_insertCell a c v rest).1 hc with hc | hc
        · omega
        · exact h.1 c hc

theorem eraseCell_sorted (a : Int) :
    ∀ {l : List (Int × Int)}, (l.map Prod.fst).Pairwise (· < ·) → ((eraseCell a l).map Prod.fst).Pairwise (· < ·)
  | [], h => h
  | (b, w) :: rest, h => by
    simp only [List.map_cons, List.pairwise_cons] at h
    unfold eraseCell
    split
    · exact h.2
    · simp only [List.map_cons, List.pairwise_cons]
      exact ⟨fun c hc => h.1 c (mem_keys_eraseCell hc), eraseCell_sorted a h.2⟩

theorem not_mem_eraseCell (a : Int) :
    ∀ {l : List (Int × Int)}, (l.map Prod.fst).Pairwise (· < ·) → a ∉ (eraseCell a l).map Prod.fst
  | [], _ => by simp [eraseCell]
  | (b, w) :: rest, h => by
    simp only [List.map_cons, List.pairwise_cons] at h
    unfold eraseCell
    split
    · rename_i hab
      intro ha
      have := h.1 a ha
      omega
    · rename_i hab
      simp only [List.map_cons, List.mem_cons, not_or]
      exact ⟨hab, not_mem_eraseCell a h.2⟩

/-- The length of the cells after an insertion. -/
theorem length_insertCell (a v : Int) :
    ∀ {l : List (Int × Int)}, (l.map Prod.fst).Pairwise (· < ·) →
      (insertCell a v l).length = l.length + if a ∈ l.map Prod.fst then 0 else 1
  | [], _ => by simp [insertCell]
  | (b, w) :: rest, h => by
    simp only [List.map_cons, List.pairwise_cons] at h
    unfold insertCell
    split
    · rename_i hab
      have hn : a ∉ rest.map Prod.fst := fun ha => by have := h.1 a ha; omega
      have hne : a ≠ b := by omega
      simp only [List.map_cons, List.mem_cons, hne, hn, or_self, if_false, List.length_cons]
    · split
      · rename_i hab
        simp [hab]
      · rename_i _ hab
        simp only [List.length_cons, List.map_cons, List.mem_cons, hab, false_or, length_insertCell a v h.2]
        omega

/-- The length of the cells after an erasure. -/
theorem length_eraseCell (a : Int) :
    ∀ {l : List (Int × Int)}, (l.map Prod.fst).Pairwise (· < ·) →
      (eraseCell a l).length + (if a ∈ l.map Prod.fst then 1 else 0) = l.length
  | [], _ => by simp [eraseCell]
  | (b, w) :: rest, h => by
    simp only [List.map_cons, List.pairwise_cons] at h
    unfold eraseCell
    split
    · rename_i hab
      simp [hab]
    · rename_i hab
      have := length_eraseCell a h.2
      simp only [List.map_cons, List.mem_cons, hab, false_or, List.length_cons]
      omega

/-! ## The list of addresses that hold 0 -/

theorem mem_insertKey (a b : Int) : ∀ l : List Int, b ∈ insertKey a l ↔ b = a ∨ b ∈ l
  | [] => by simp [insertKey]
  | c :: rest => by
    unfold insertKey
    split
    · simp
    · split
      · rename_i _ hc
        simp [hc]
      · simp only [List.mem_cons, mem_insertKey a b rest]
        tauto

theorem mem_of_mem_eraseKey {a b : Int} : ∀ {l : List Int}, b ∈ eraseKey a l → b ∈ l
  | [], h => h
  | c :: rest, h => by
    unfold eraseKey at h
    split at h
    · exact List.mem_cons_of_mem _ h
    · exact List.mem_cons.2 ((List.mem_cons.1 h).imp id mem_of_mem_eraseKey)

theorem mem_eraseKey_other {a b : Int} (hb : b ≠ a) : ∀ {l : List Int}, b ∈ l → b ∈ eraseKey a l
  | c :: rest, h => by
    unfold eraseKey
    split
    · rename_i hc
      exact (List.mem_cons.1 h).resolve_left fun hbc => hb (hbc.trans hc.symm)
    · exact List.mem_cons.2 ((List.mem_cons.1 h).imp id (mem_eraseKey_other hb))

theorem insertKey_sorted (a : Int) : ∀ {l : List Int}, l.Pairwise (· < ·) → (insertKey a l).Pairwise (· < ·)
  | [], _ => by simp [insertKey]
  | b :: rest, h => by
    have h' := List.pairwise_cons.1 h
    unfold insertKey
    split
    · rename_i hab
      exact List.pairwise_cons.2
        ⟨fun c hc => (List.mem_cons.1 hc).elim (fun e => e ▸ hab) fun hc => lt_trans hab (h'.1 c hc), h⟩
    · split
      · exact h
      · refine List.pairwise_cons.2 ⟨fun c hc => ?_, insertKey_sorted a h'.2⟩
        rcases (mem_insertKey a c rest).1 hc with hc | hc
        · omega
        · exact h'.1 c hc

theorem eraseKey_sorted (a : Int) : ∀ {l : List Int}, l.Pairwise (· < ·) → (eraseKey a l).Pairwise (· < ·)
  | [], h => h
  | b :: rest, h => by
    have h' := List.pairwise_cons.1 h
    unfold eraseKey
    split
    · exact h'.2
    · exact List.pairwise_cons.2 ⟨fun c hc => h'.1 c (mem_of_mem_eraseKey hc), eraseKey_sorted a h'.2⟩

theorem not_mem_eraseKey (a : Int) : ∀ {l : List Int}, l.Pairwise (· < ·) → a ∉ eraseKey a l
  | [], _ => by simp [eraseKey]
  | b :: rest, h => by
    have h' := List.pairwise_cons.1 h
    unfold eraseKey
    split
    · rename_i hab
      intro ha
      have := h'.1 a ha
      omega
    · rename_i hab
      simp only [List.mem_cons, not_or]
      exact ⟨hab, not_mem_eraseKey a h'.2⟩

theorem length_insertKey (a : Int) : ∀ {l : List Int}, l.Pairwise (· < ·) →
    (insertKey a l).length = l.length + if a ∈ l then 0 else 1
  | [], _ => by simp [insertKey]
  | b :: rest, h => by
    have h' := List.pairwise_cons.1 h
    unfold insertKey
    split
    · rename_i hab
      have hn : a ∉ rest := fun ha => by have := h'.1 a ha; omega
      have hne : a ≠ b := by omega
      simp only [List.mem_cons, hne, hn, or_self, if_false, List.length_cons]
    · split
      · rename_i hab
        simp [hab]
      · rename_i _ hab
        simp only [List.length_cons, List.mem_cons, hab, false_or, length_insertKey a h'.2]
        omega

theorem length_eraseKey (a : Int) : ∀ {l : List Int}, l.Pairwise (· < ·) →
    (eraseKey a l).length + (if a ∈ l then 1 else 0) = l.length
  | [], _ => by simp [eraseKey]
  | b :: rest, h => by
    have h' := List.pairwise_cons.1 h
    unfold eraseKey
    split
    · rename_i hab
      simp [hab]
    · rename_i hab
      have := length_eraseKey a h'.2
      simp only [List.mem_cons, hab, false_or, List.length_cons]
      omega

/-! ## Memory -/

/-- R53: a read of the address just written. -/
theorem Memory.read_write_same {m : Memory} (h : m.wf) (a v : Int) : (m.write a v).read a = v := by
  unfold Memory.write Memory.read
  split
  · rename_i hv
    rw [hv]
    exact readCell_of_not_mem (not_mem_eraseCell a h.1)
  · exact readCell_insertCell_same a v _

/-- R53: a read of any other address. -/
theorem Memory.read_write_other (m : Memory) {a b : Int} (v : Int) (h : b ≠ a) :
    (m.write a v).read b = m.read b := by
  unfold Memory.write Memory.read
  split
  · exact readCell_eraseCell_other h _
  · exact readCell_insertCell_other v h _

/-- R53: which addresses are present after a write. -/
theorem Memory.present_write (m : Memory) (a v b : Int) : (m.write a v).Present b ↔ b = a ∨ m.Present b := by
  unfold Memory.write
  by_cases hb : b = a
  · subst hb
    split <;> simp [Memory.Present, mem_insertKey, mem_keys_insertCell]
  · split
    · refine ⟨fun h => .inr ?_, fun h => ?_⟩
      · rcases h with h | h
        · exact .inl (mem_keys_eraseCell h)
        · exact .inr (((mem_insertKey a b _).1 h).resolve_left hb)
      · rcases h.resolve_left hb with h | h
        · exact .inl (mem_keys_eraseCell_other hb h)
        · exact .inr ((mem_insertKey a b _).2 (.inr h))
    · refine ⟨fun h => .inr ?_, fun h => ?_⟩
      · rcases h with h | h
        · exact .inl (((mem_keys_insertCell a b v _).1 h).resolve_left hb)
        · exact .inr (mem_of_mem_eraseKey h)
      · rcases h.resolve_left hb with h | h
        · exact .inl ((mem_keys_insertCell a b v _).2 (.inr h))
        · exact .inr (mem_eraseKey_other hb h)

/-- A write keeps the canonical form. -/
theorem Memory.write_wf {m : Memory} (h : m.wf) (a v : Int) : (m.write a v).wf := by
  obtain ⟨hc, h0, hz, hd⟩ := h
  unfold Memory.write
  split
  · refine ⟨eraseCell_sorted a hc, fun e he => h0 e (mem_eraseCell he), insertKey_sorted a hz, fun b hb => ?_⟩
    rcases (mem_insertKey a b _).1 hb with rfl | hb
    · exact not_mem_eraseCell b hc
    · exact fun hn => hd b hb (mem_keys_eraseCell hn)
  · rename_i hv
    refine ⟨insertCell_sorted a v hc, fun e he => ?_, eraseKey_sorted a hz, fun b hb => ?_⟩
    · rcases mem_insertCell he with rfl | he
      · exact hv
      · exact h0 e he
    · intro hn
      rcases (mem_keys_insertCell a b v _).1 hn with rfl | hn
      · exact not_mem_eraseKey b hz hb
      · exact hd b (mem_of_mem_eraseKey hb) hn

/-- R60: a write makes at most one more address present, and none where the address was present. -/
theorem Memory.count_write {m : Memory} (h : m.wf) (a v : Int) :
    (m.write a v).count = m.count + if m.Present a then 0 else 1 := by
  obtain ⟨hc, -, hz, hd⟩ := h
  have hdis : a ∈ m.zeros → a ∉ m.cells.map Prod.fst := hd a
  unfold Memory.write Memory.count Memory.Present
  split
  · have h1 := length_eraseCell a hc
    have h2 := length_insertKey a hz
    by_cases hac : a ∈ m.cells.map Prod.fst <;> by_cases haz : a ∈ m.zeros <;>
      simp only [hac, haz, if_true, if_false, or_true, or_false, or_self] at h1 h2 ⊢ <;>
      first | omega | exact absurd hac (hdis haz)
  · have h1 := length_insertCell a v hc
    have h2 := length_eraseKey a hz
    by_cases hac : a ∈ m.cells.map Prod.fst <;> by_cases haz : a ∈ m.zeros <;>
      simp only [hac, haz, if_true, if_false, or_true, or_false, or_self] at h1 h2 ⊢ <;>
      first | omega | exact absurd hac (hdis haz)

/-- R52: what memory reads is 0 or a listed Word. -/
theorem Memory.read_eq_zero_or_mem (m : Memory) (a : Int) : m.read a = 0 ∨ (a, m.read a) ∈ m.cells := by
  by_cases h : a ∈ m.cells.map Prod.fst
  · exact .inr (readCell_mem h)
  · exact .inl (readCell_of_not_mem h)

/-- R52: an absent address reads 0. -/
theorem Memory.read_of_not_present {m : Memory} {a : Int} (h : ¬m.Present a) : m.read a = 0 :=
  readCell_of_not_mem fun hc => h (.inl hc)

/-- The Words of a memory after a write. -/
theorem Memory.mem_cells_write {m : Memory} {a v : Int} {e : Int × Int} (h : e ∈ (m.write a v).cells) :
    e = (a, v) ∨ e ∈ m.cells := by
  unfold Memory.write at h
  split at h
  · exact .inr (mem_eraseCell h)
  · exact mem_insertCell h

/-- Placing a program keeps the canonical form. -/
theorem Memory.load_wf : ∀ (l : List Int) {m : Memory} (a : Int), m.wf → (m.load a l).wf
  | [], _, _, h => h
  | v :: rest, _, a, h => Memory.load_wf rest (a + 1) (Memory.write_wf h a v)

/-- An address below a placed program reads as before. -/
theorem Memory.read_load_below : ∀ (l : List Int) (m : Memory) {a b : Int}, b < a →
    (m.load a l).read b = m.read b
  | [], _, _, _, _ => rfl
  | v :: rest, m, a, b, h => by
    rw [Memory.load, Memory.read_load_below rest _ (by omega), Memory.read_write_other _ _ (by omega)]

/-- R212, R270: everything loading a program at fresh addresses does. -/
theorem Memory.load_fresh : ∀ (l : List Int) {m : Memory} (a : Int), m.wf → (∀ b, m.Present b → b < a) →
    (∀ b, (m.load a l).Present b ↔ m.Present b ∨ a ≤ b ∧ b < a + l.length) ∧
    (m.load a l).count = m.count + l.length ∧
    (∀ n : Nat, (h : n < l.length) → (m.load a l).read (a + n) = l[n]) ∧
    ∀ e ∈ (m.load a l).cells, e ∈ m.cells ∨ e.2 ∈ l
  | [], m, a, _, _ =>
    ⟨fun b => by simp [Memory.load], rfl, fun n h => by simp at h, fun e he => .inl he⟩
  | v :: l, m, a, hw, hb => by
    have hp : ¬m.Present a := fun h => by
      have := hb a h
      omega
    obtain ⟨h1, h2, h3, h4⟩ := Memory.load_fresh l (a + 1) (Memory.write_wf hw a v) fun b h => by
      rcases (m.present_write a v b).1 h with rfl | h
      · omega
      · have := hb b h
        omega
    refine ⟨fun b => ?_, ?_, fun n hn => ?_, fun e he => ?_⟩
    · rw [Memory.load, h1, Memory.present_write, List.length_cons]
      push_cast
      constructor
      · rintro ((rfl | h) | h)
        · exact .inr (by omega)
        · exact .inl h
        · exact .inr (by omega)
      · rintro (h | h)
        · exact .inl (.inr h)
        · by_cases hba : b = a
          · exact .inl (.inl hba)
          · exact .inr (by omega)
    · rw [Memory.load, h2, Memory.count_write hw, if_neg hp, List.length_cons]
      omega
    · cases n with
      | zero =>
        have := Memory.read_load_below l (m.write a v) (a := a + 1) (b := a) (by omega)
        simp [Memory.load, this, Memory.read_write_same hw]
      | succ n =>
        have := h3 n (by simpa using hn)
        rw [show a + 1 + (n : Int) = a + (n + 1 : Nat) by push_cast; omega] at this
        simpa [Memory.load] using this
    · rcases h4 e he with h | h
      · rcases Memory.mem_cells_write h with rfl | h
        · exact .inr (List.mem_cons_self ..)
        · exact .inl h
      · exact .inr (List.mem_cons_of_mem _ h)

/-- The memory of a core at construction is in its canonical form. -/
theorem State.reset_mem_wf : State.reset.mem.wf := by decide

end Sys2Proof.Machine
end

