-- ==== Sys2Proof/Laws/Ops.lean ====
section
/-!
SUPPORT. What each shared operation can do, said once.

`Does x cs P a t` says all of a sub-step `x`: where no check of the list `cs` fails, `x` completes with value `a` in state
`t`; where the first check that fails is that of the fault `f`, `x` raises `f`, in a state that meets `P`. `Does.bind`
composes it along a body, so a body's lemma is its list of checks (R251), the states it can fault in (R249) and the state
it completes in. Provers cite these lemmas instead of unfolding the sub-steps.
-/

namespace Sys2Proof.Machine

/-! ## Checks -/

theorem firstFailure_cons (b : Bool) (f : FaultInfo) (cs : List Check) :
    firstFailure ((b, f) :: cs) = if b = true then some f else firstFailure cs := rfl

theorem firstFailure_append (cs ds : List Check) :
    firstFailure (cs ++ ds) = (firstFailure cs).or (firstFailure ds) := by
  induction cs with
  | nil => simp [firstFailure]
  | cons c cs ih =>
    obtain ⟨b, f⟩ := c
    cases b <;> simp [firstFailure, ih]

/-- What a sub-step does. -/
def Does {α : Type} (x : SubStep α) (cs : List Check) (P : State → Prop) (a : α) (t : State) : Prop :=
  (firstFailure cs = none → x = .ok a t) ∧ ∀ f, firstFailure cs = some f → ∃ u, x = .raise f u ∧ P u

theorem Does.bind {α β : Type} {x : SubStep α} {g : α → State → SubStep β} {cs ds : List Check} {P : State → Prop}
    {a : α} {b : β} {t v : State} (hx : Does x cs P a t) (hg : firstFailure cs = none → Does (g a t) ds P b v) :
    Does (x.bind g) (cs ++ ds) P b v := by
  refine ⟨fun h => ?_, fun f h => ?_⟩
  · rw [firstFailure_append, Option.or_eq_none_iff] at h
    rw [hx.1 h.1]
    exact (hg h.1).1 h.2
  · rw [firstFailure_append] at h
    cases hc : firstFailure cs with
    | some e =>
      rw [hc] at h
      obtain ⟨u, hu, hP⟩ := hx.2 e hc
      exact ⟨u, by simp only [Option.some_or, Option.some.injEq] at h; simp [hu, SubStep.bind, h], hP⟩
    | none =>
      rw [hc, Option.none_or] at h
      rw [hx.1 hc]
      exact (hg hc).2 f h

theorem Does.mono {α : Type} {x : SubStep α} {cs : List Check} {P Q : State → Prop} {a : α} {t : State}
    (h : Does x cs P a t) (hPQ : ∀ u, P u → Q u) : Does x cs Q a t :=
  ⟨h.1, fun f hf => let ⟨u, hu, hP⟩ := h.2 f hf; ⟨u, hu, hPQ u hP⟩⟩

/-- A check that cannot fail may be left out. -/
theorem Does.skip {α : Type} {x : SubStep α} {b : Bool} {f : FaultInfo} {cs : List Check} {P : State → Prop} {a : α}
    {t : State} (h : Does x ((b, f) :: cs) P a t) (hb : b = false) : Does x cs P a t := by
  subst hb
  exact h

theorem Does.ok {α : Type} (P : State → Prop) (a : α) (t : State) : Does (.ok a t) [] P a t :=
  ⟨fun _ => rfl, fun _ h => by simp [firstFailure] at h⟩

/-- A sub-step of one check. -/
theorem Does.one {α : Type} {x : SubStep α} {b : Bool} {f : FaultInfo} {P : State → Prop} {a : α} {t : State}
    (hok : b = false → x = .ok a t) (hraise : b = true → ∃ u, x = .raise f u ∧ P u) : Does x [(b, f)] P a t := by
  cases b
  · exact ⟨fun _ => hok rfl, fun _ h => by simp [firstFailure] at h⟩
  · refine ⟨fun h => by simp [firstFailure] at h, fun e h => ?_⟩
    simp only [firstFailure, if_true, Option.some.injEq] at h
    exact h ▸ hraise rfl

/-! ## The parameters of the core -/

theorem chk_of_isWord {c : Config} {v : Int} (h : c.IsWord v) : chk c v = some v := if_pos h

theorem chk_of_not_isWord {c : Config} {v : Int} (h : ¬c.IsWord v) : chk c v = none := if_neg h

/-- Every integer of 64 bits is a Word of a valid configuration (R8). -/
theorem Config.isWord_of_valid {c : Config} (h : c.Valid) {v : Int} (h1 : -9223372036854775808 ≤ v)
    (h2 : v ≤ 9223372036854775807) : c.IsWord v := by
  have hp : (2 : Int) ^ 63 ≤ 2 ^ (c.wordBits - 1) := by
    exact_mod_cast Nat.pow_le_pow_right (by decide : 0 < 2) (by have := h.1; omega : 63 ≤ c.wordBits - 1)
  have h63 : (2 : Int) ^ 63 = 9223372036854775808 := by norm_num
  simp only [Config.IsWord, Config.wordMin, Config.wordMax, Sys2Proof.wordMin, Sys2Proof.wordMax]
  constructor <;> omega

/-! ## The state between the Words of an instruction -/

/-- The state with IP advanced over `n` Words. -/
def State.advanced (s : State) (n : Nat) : State := s.setIp (s.ip + n)

@[simp] theorem State.advanced_zero (s : State) : s.advanced 0 = s := by
  simp [State.advanced, State.setIp]

@[simp] theorem State.advanced_ip (s : State) (n : Nat) : (s.advanced n).ip = s.ip + n := rfl
@[simp] theorem State.advanced_cfg (s : State) (n : Nat) : (s.advanced n).cfg = s.cfg := rfl
@[simp] theorem State.advanced_rb (s : State) (n : Nat) : (s.advanced n).rb = s.rb := rfl
@[simp] theorem State.advanced_mem (s : State) (n : Nat) : (s.advanced n).mem = s.mem := rfl
@[simp] theorem State.advanced_iq (s : State) (n : Nat) : (s.advanced n).iq = s.iq := rfl
@[simp] theorem State.advanced_oq (s : State) (n : Nat) : (s.advanced n).oq = s.oq := rfl
@[simp] theorem State.advanced_status (s : State) (n : Nat) : (s.advanced n).status = s.status := rfl
@[simp] theorem State.advanced_fr (s : State) (n : Nat) : (s.advanced n).fr = s.fr := rfl

/-- IP can have been advanced over `n` Words: it is still a Word (R24). -/
def State.Reached (s : State) (n : Nat) : Prop := n = 0 ∨ s.cfg.IsWord (s.ip + n)

/-- The states a step can fault in before it has popped IQ: IP has been advanced over some of its Words (R249). -/
def State.Within (s : State) (n : Nat) (u : State) : Prop := ∃ j, j ≤ n ∧ s.Reached j ∧ u = s.advanced j

theorem State.Within.mono {s u : State} {n k : Nat} (h : s.Within n u) (hnk : n ≤ k) : s.Within k u :=
  let ⟨j, hj, hu⟩ := h; ⟨j, hj.trans hnk, hu⟩

theorem State.within_advanced {s : State} {n k : Nat} (hr : s.Reached n) (h : n ≤ k) {u : State}
    (hu : u = s.advanced n) : s.Within k u :=
  ⟨n, h, hr, hu⟩

/-- An increment whose check does not fail. -/
theorem State.reached_of_increment {s : State} {k : Fin 4} {cs : List Check}
    (h : firstFailure (s.incrementCheck k :: cs) = none) : s.Reached (k.val + 1) := by
  simp only [State.incrementCheck, firstFailure_cons] at h
  split at h
  · cases h
  · rename_i hw
    have := Decidable.of_not_not (of_decide_eq_false (by simpa only [Bool.not_eq_true] using hw))
    exact .inr (by simpa only [Nat.cast_add, Nat.cast_one, ← add_assoc] using this)

/-! ## The sub-steps -/

/-- R111, R113. -/
theorem fetchWord_does (s : State) (k : Fin 4) :
    Does (fetchWord k (s.advanced k.val)) [s.incrementCheck k] (fun u => u = s.advanced k.val) (s.param k.val)
      (s.advanced (k.val + 1)) := by
  refine Does.one (fun h => ?_) (fun h => ?_)
  · have hw : s.cfg.IsWord (s.ip + k.val + 1) := Decidable.of_not_not (of_decide_eq_false h)
    simp only [fetchWord, State.advanced_cfg, State.advanced_ip, chk_of_isWord hw, State.param, State.advanced_mem]
    simp [State.advanced, State.setIp, add_assoc]
  · have hw : ¬s.cfg.IsWord (s.ip + k.val + 1) := of_decide_eq_true h
    exact ⟨_, by simp only [fetchWord, State.advanced_cfg, State.advanced_ip, chk_of_not_isWord hw], rfl⟩

/-- R61: resolving an address. -/
theorem resolveAddr_eq (s u : State) (m : Mode) (k : Fin 4) (hc : u.cfg = s.cfg) (hr : u.rb = s.rb)
    (hm : m ≠ .immediate) :
    resolveAddr u.cfg u.rb (s.param k.val) m k =
      match firstFailure (s.addressChecks m k) with
      | some f => .error f
      | none => .ok (s.operandAddr m k.val) := by
  rw [hc, hr]
  have haddr : ∀ a : Int, (if a < 0 ∧ s.cfg.negAddrPolicy = .fault then Except.error ⟨.addressFault, k, a⟩ else .ok a)
      = match firstFailure [(decide (a < 0 ∧ s.cfg.negAddrPolicy = .fault), ⟨.addressFault, k, a⟩)] with
        | some f => Except.error f
        | none => .ok a := by
    intro a
    by_cases h : a < 0 ∧ s.cfg.negAddrPolicy = .fault
    · simp only [h, firstFailure, and_self, if_true, decide_true]
    · simp only [if_neg h, firstFailure, decide_eq_false h, Bool.false_eq_true, if_false]
  cases m
  · have h0 : decide (Mode.position = .relative ∧ ¬s.cfg.IsWord (s.operandAddr .position k.val)) = false :=
      decide_eq_false fun h => absurd h.1 (by decide)
    rw [State.addressChecks, firstFailure_cons, h0, if_neg (by decide), ← haddr]
    rfl
  · exact absurd rfl hm
  · by_cases hw : s.cfg.IsWord (s.operandAddr .relative k.val)
    · have h0 : decide (Mode.relative = .relative ∧ ¬s.cfg.IsWord (s.operandAddr .relative k.val)) = false :=
        decide_eq_false fun h => h.2 hw
      rw [State.addressChecks, firstFailure_cons, h0, if_neg (by decide), ← haddr]
      simp only [resolveAddr, effectiveAddr, alu, aluExact, chk_of_isWord (v := s.param k.val + s.rb) hw,
        State.operandAddr]
      rfl
    · have h0 : decide (Mode.relative = .relative ∧ ¬s.cfg.IsWord (s.operandAddr .relative k.val)) = true :=
        decide_eq_true ⟨rfl, hw⟩
      rw [State.addressChecks, firstFailure_cons, h0, if_pos rfl]
      simp only [resolveAddr, effectiveAddr, alu, aluExact, chk_of_not_isWord (v := s.param k.val + s.rb) hw]

/-- R61 to R64. -/
theorem load_does (s u : State) (m : Mode) (k : Fin 4) (hc : u.cfg = s.cfg) (hr : u.rb = s.rb) (hm : u.mem = s.mem) :
    Does (load (s.param k.val) m k u) (if m = .immediate then [] else s.addressChecks m k) (fun v => v = u)
      (s.operand m k.val) u := by
  have key : m ≠ .immediate → Does (load (s.param k.val) m k u) (s.addressChecks m k) (fun v => v = u)
      (s.operand m k.val) u := by
    intro hmi
    have hra := resolveAddr_eq s u m k hc hr hmi
    refine ⟨fun h => ?_, fun f h => ⟨u, ?_, rfl⟩⟩ <;> rw [h] at hra
    · cases m
      · simp only [load, hra, hm, State.operand]
      · exact absurd rfl hmi
      · simp only [load, hra, hm, State.operand]
    · cases m
      · simp only [load, hra]
      · exact absurd rfl hmi
      · simp only [load, hra]
  by_cases hmi : m = .immediate
  · subst hmi
    exact Does.ok _ _ _
  · rw [if_neg hmi]
    exact key hmi

/-- R113: fetching a source parameter. -/
theorem fetchSource_does (s : State) (m : Mode) (k : Fin 4) (h : s.Reached k.val) :
    Does (fetchSource m k (s.advanced k.val)) (s.sourceChecks m k) (s.Within (k.val + 1)) (s.operand m k.val)
      (s.advanced (k.val + 1)) :=
  Does.bind ((fetchWord_does s k).mono fun _ hu => State.within_advanced h (Nat.le_succ _) hu) fun hk =>
    (load_does s (s.advanced (k.val + 1)) m k rfl rfl rfl).mono fun _ hu =>
      State.within_advanced (State.reached_of_increment hk) le_rfl hu

/-- R53, R60. -/
theorem memWrite_does (u : State) (a v : Int) (k : Fin 4) :
    Does (memWrite a v k u)
      [(decide (¬u.mem.Present a ∧ hasRoom u.cfg.memCapacity u.mem.count = false), ⟨.capacityFault, k, 1⟩)]
      (fun w => w = u) () (u.setMem (u.mem.write a v)) := by
  refine Does.one (fun h => ?_) (fun h => ⟨u, ?_, rfl⟩)
  · refine if_pos ?_
    by_contra hn
    rw [not_or, Bool.not_eq_true] at hn
    exact of_decide_eq_false h hn
  · have h := of_decide_eq_true h
    exact if_neg (not_or.2 ⟨h.1, by simp [h.2]⟩)

/-- R61, R65 to R67: storing through a parameter. -/
theorem store_does (s u : State) (m : Mode) (k : Fin 4) (v : Int) (hc : u.cfg = s.cfg) (hr : u.rb = s.rb)
    (hm : u.mem = s.mem) :
    Does (store (s.param k.val) v m k u) (s.storeChecks m k) (fun w => w = u) ()
      (u.setMem (s.mem.write (s.operandAddr m k.val) v)) := by
  have hw := memWrite_does u (s.operandAddr m k.val) v k
  rw [hm, hc] at hw
  have key : m ≠ .immediate → Does (store (s.param k.val) v m k u) (s.storeChecks m k) (fun w => w = u) ()
      (u.setMem (s.mem.write (s.operandAddr m k.val) v)) := by
    intro hmi
    have hra := resolveAddr_eq s u m k hc hr hmi
    have hst : store (s.param k.val) v m k u =
        match firstFailure (s.addressChecks m k) with
        | some f => .raise f u
        | none => memWrite (s.operandAddr m k.val) v k u := by
      cases m
      · simp only [store, hra]; cases firstFailure (s.addressChecks .position k) <;> rfl
      · exact absurd rfl hmi
      · simp only [store, hra]; cases firstFailure (s.addressChecks .relative k) <;> rfl
    rw [hst, State.storeChecks, if_neg hmi]
    refine ⟨fun h => ?_, fun f h => ?_⟩
    · rw [firstFailure_append, Option.or_eq_none_iff] at h
      rw [h.1]
      exact hw.1 h.2
    · rw [firstFailure_append] at h
      cases hf : firstFailure (s.addressChecks m k) with
      | some e => rw [hf] at h; exact ⟨u, by simpa using h, rfl⟩
      | none => rw [hf] at h; exact hw.2 f (by simpa using h)
  by_cases hmi : m = .immediate
  · subst hmi
    exact Does.one (fun h => absurd h (by simp)) fun _ => ⟨u, rfl, rfl⟩
  · exact key hmi

/-- R140: the alu. -/
theorem aluResult_does (s u : State) (f : AluOp) (a b : Int) (hc : u.cfg = s.cfg) :
    Does (aluResult f a b u) [s.resultCheck (aluExact f a b)] (fun w => w = u) (aluExact f a b) u := by
  refine Does.one (fun h => ?_) (fun h => ⟨u, ?_, rfl⟩)
  · have hw : s.cfg.IsWord (aluExact f a b) := Decidable.of_not_not (of_decide_eq_false h)
    simp only [aluResult, alu, hc, chk_of_isWord hw]
  · have hw : ¬s.cfg.IsWord (aluExact f a b) := of_decide_eq_true h
    simp only [aluResult, alu, hc, chk_of_not_isWord hw]

/-- R140: a comparison never overflows. -/
theorem aluResult_bit_does (u : State) (f : AluOp) (a b : Int) (hv : u.cfg.Valid)
    (hf : aluExact f a b = 0 ∨ aluExact f a b = 1) :
    Does (aluResult f a b u) [] (fun w => w = u) (aluExact f a b) u :=
  (aluResult_does u u f a b rfl).skip (by
    rcases hf with h | h <;> rw [h] <;>
      exact decide_eq_false (not_not.2 (Config.isWord_of_valid hv (by norm_num) (by norm_num))))

/-- R160: popping IQ. -/
theorem popInput_does (u : State) :
    Does (popInput u) [(decide (u.iq = []), ⟨.starvationError, 1, 0⟩)] (fun w => w = u) (u.iq.headD 0)
      (u.setIq u.iq.tail) := by
  refine Does.one (fun h => ?_) (fun h => ⟨u, ?_, rfl⟩)
  · cases hq : u.iq with
    | nil => simp [hq] at h
    | cons x rest => simp [popInput, hq]
  · have hq : u.iq = [] := by simpa using h
    simp [popInput, hq]

/-- R161, R164: appending to OQ. -/
theorem pushOutput_does (u : State) (v : Int) :
    Does (pushOutput v u) [(decide (hasRoom u.cfg.oqCapacity u.oq.length = false), ⟨.capacityFault, 1, 2⟩)]
      (fun w => w = u) () (u.setOq (u.oq ++ [v])) := by
  refine Does.one (fun h => ?_) (fun h => ⟨u, ?_, rfl⟩)
  · exact if_pos (by simpa using h)
  · exact if_neg (by simpa using h)

/-- R180 to R182: a jump that may be taken. -/
theorem jump_does (u : State) (taken : Bool) (target : Int) :
    Does (if taken = true then jumpTo target u else .ok () u) [jumpCheck taken target] (fun w => w = u) ()
      (if taken = true then u.setIp target else u) := by
  cases taken
  · exact Does.one (fun _ => rfl) fun h => absurd h (by simp)
  · refine Does.one (fun h => ?_) (fun h => ⟨u, ?_, rfl⟩)
    · simp only [Bool.true_and, decide_eq_false_iff_not] at h
      simp [jumpTo, h]
    · simp only [Bool.true_and, decide_eq_true_eq] at h
      simp [jumpTo, h]

/-! ## The bodies -/

/-- R141, R142: the body with the check of its result. -/
theorem aluBody_does (s : State) (f : AluOp) (m1 m2 m3 : Mode) (h : s.Reached 1) :
    Does (aluBody f m1 m2 m3 (s.advanced 1))
      (s.sourceChecks m1 1 ++ (s.sourceChecks m2 2 ++ ([s.incrementCheck 3]
        ++ ([s.resultCheck (aluExact f (s.operand m1 1) (s.operand m2 2))] ++ s.storeChecks m3 3))))
      (s.Within 4) ()
      ((s.advanced 4).setMem (s.mem.write (s.operandAddr m3 3) (aluExact f (s.operand m1 1) (s.operand m2 2)))) :=
  ((fetchSource_does s m1 1 h).mono fun _ h => h.mono (by decide)).bind fun h1 =>
  ((fetchSource_does s m2 2 (State.reached_of_increment h1)).mono fun _ h => h.mono (by decide)).bind fun h2 =>
  ((fetchWord_does s 3).mono fun _ h => State.within_advanced (State.reached_of_increment h2) (by decide) h).bind
    fun h3 =>
  ((aluResult_does s (s.advanced 4) f _ _ rfl).mono fun _ h =>
    State.within_advanced (State.reached_of_increment h3) le_rfl h).bind fun _ =>
  (store_does s (s.advanced 4) m3 3 _ rfl rfl rfl).mono fun _ h =>
    State.within_advanced (State.reached_of_increment h3) le_rfl h

/-- R143, R144: the body of a comparison. -/
theorem aluBody_bit_does (s : State) (f : AluOp) (m1 m2 m3 : Mode) (h : s.Reached 1) (hv : s.cfg.Valid)
    (hf : ∀ a b, aluExact f a b = 0 ∨ aluExact f a b = 1) :
    Does (aluBody f m1 m2 m3 (s.advanced 1))
      (s.sourceChecks m1 1 ++ (s.sourceChecks m2 2 ++ ([s.incrementCheck 3] ++ ([] ++ s.storeChecks m3 3))))
      (s.Within 4) ()
      ((s.advanced 4).setMem (s.mem.write (s.operandAddr m3 3) (aluExact f (s.operand m1 1) (s.operand m2 2)))) :=
  ((fetchSource_does s m1 1 h).mono fun _ h => h.mono (by decide)).bind fun h1 =>
  ((fetchSource_does s m2 2 (State.reached_of_increment h1)).mono fun _ h => h.mono (by decide)).bind fun h2 =>
  ((fetchWord_does s 3).mono fun _ h => State.within_advanced (State.reached_of_increment h2) (by decide) h).bind
    fun h3 =>
  ((aluResult_bit_does (s.advanced 4) f _ _ hv (hf _ _)).mono fun _ h =>
    State.within_advanced (State.reached_of_increment h3) le_rfl h).bind fun _ =>
  (store_does s (s.advanced 4) m3 3 _ rfl rfl rfl).mono fun _ h =>
    State.within_advanced (State.reached_of_increment h3) le_rfl h

/-- R160: the states `read_input` can fault in: before the pop, and after it (the value is then lost). -/
def State.WithinPop (s u : State) : Prop := s.Within 2 u ∨ (s.Reached 2 ∧ u = (s.advanced 2).setIq s.iq.tail)

theorem readInputBody_does (s : State) (m1 : Mode) (h : s.Reached 1) :
    Does (readInputBody m1 (s.advanced 1))
      ([s.incrementCheck 1] ++ ([(decide (s.iq = []), ⟨.starvationError, 1, 0⟩)] ++ s.storeChecks m1 1)) s.WithinPop ()
      (((s.advanced 2).setIq s.iq.tail).setMem (s.mem.write (s.operandAddr m1 1) (s.iq.headD 0))) :=
  ((fetchWord_does s 1).mono fun _ hu => .inl (State.within_advanced h (by decide) hu)).bind fun h1 =>
  ((popInput_does (s.advanced 2)).mono fun _ h =>
    .inl (State.within_advanced (State.reached_of_increment h1) le_rfl h)).bind fun _ =>
  (store_does s ((s.advanced 2).setIq s.iq.tail) m1 1 _ rfl rfl rfl).mono fun _ h =>
    .inr ⟨State.reached_of_increment h1, h⟩

theorem writeOutputBody_does (s : State) (m1 : Mode) (h : s.Reached 1) :
    Does (writeOutputBody m1 (s.advanced 1))
      (s.sourceChecks m1 1 ++ [(decide (hasRoom s.cfg.oqCapacity s.oq.length = false), ⟨.capacityFault, 1, 2⟩)])
      (s.Within 2) () ((s.advanced 2).setOq (s.oq ++ [s.operand m1 1])) :=
  (fetchSource_does s m1 1 h).bind fun h1 =>
  (pushOutput_does (s.advanced 2) _).mono fun _ h =>
    State.within_advanced (State.reached_of_increment h1) le_rfl h

/-- R180, R181: the body of both jumps; the jump is taken where `alu(NZ, t, 0)` is `sense`. -/
theorem jumpBody_does (s : State) (sense : Int) (m1 m2 : Mode) (h : s.Reached 1) (hv : s.cfg.Valid) :
    Does (jumpBody sense m1 m2 (s.advanced 1))
      (s.sourceChecks m1 1 ++ (s.sourceChecks m2 2 ++ ([]
        ++ [jumpCheck (decide (aluExact .nz (s.operand m1 1) 0 = sense)) (s.operand m2 2)])))
      (s.Within 3) ()
      (if decide (aluExact .nz (s.operand m1 1) 0 = sense) = true then (s.advanced 3).setIp (s.operand m2 2)
        else s.advanced 3) := by
  have hj := jump_does (s.advanced 3) (decide (aluExact .nz (s.operand m1 1) 0 = sense)) (s.operand m2 2)
  refine ((fetchSource_does s m1 1 h).mono fun _ h => h.mono (by decide)).bind fun h1 =>
    (fetchSource_does s m2 2 (State.reached_of_increment h1)).bind fun h2 =>
    ((aluResult_bit_does (s.advanced 3) .nz _ 0 hv ?_).mono fun _ h =>
      State.within_advanced (State.reached_of_increment h2) le_rfl h).bind fun _ =>
    Does.mono (P := fun w => w = s.advanced 3) ?_ fun _ h =>
      State.within_advanced (State.reached_of_increment h2) le_rfl h
  · simp only [aluExact]
    split <;> simp
  · simp only [decide_eq_true_eq] at hj
    simp only [decide_eq_true_eq]
    exact hj

theorem haltBody_does (s : State) (P : State → Prop) :
    Does (haltBody (s.advanced 1)) [] P ()
      (((s.advanced 1).setIp s.cfg.haltSentinel).setStatus s.status.enterHalted) :=
  Does.ok _ _ _

theorem adjustRelativeBaseBody_does (s : State) (m1 : Mode) (h : s.Reached 1) :
    Does (adjustRelativeBaseBody m1 (s.advanced 1))
      (s.sourceChecks m1 1 ++ ([s.resultCheck (s.rb + s.operand m1 1)] ++ [])) (s.Within 2) ()
      ((s.advanced 2).setRb (s.rb + s.operand m1 1)) :=
  (fetchSource_does s m1 1 h).bind fun h1 =>
  ((aluResult_does s (s.advanced 2) .add _ _ rfl).mono fun _ h =>
    State.within_advanced (State.reached_of_increment h1) le_rfl h).bind fun _ => Does.ok _ _ _

/-! ## The frame of a step -/

/-- R110: a body runs on a Running core only. -/
theorem runBody_of_not_running {body : State → SubStep Unit} {s : State} (h : ¬s.Running) : runBody body s = .next s :=
  if_neg h

/-- R111, R118, R248: a step that runs `body`. -/
theorem runBody_does {body : State → SubStep Unit} {s t : State} {cs : List Check} {P : State → Prop} (h : s.Running)
    (hb : s.Reached 1 → Does (body (s.advanced 1)) cs P () t) :
    (firstFailure (s.incrementCheck 0 :: cs) = none → runBody body s = .next t) ∧
    ∀ f, firstFailure (s.incrementCheck 0 :: cs) = some f →
      ∃ u, runBody body s = .next (faultEntry s.ip (s.mem.read s.ip) f u) ∧ (u = s ∨ P u) := by
  have hf : Does ((fetchWord 0 s).bind fun _ t => body t) ([s.incrementCheck 0] ++ cs) (fun u => u = s ∨ P u) () t := by
    have h0 := fetchWord_does s 0
    simp only [Fin.val_zero, State.advanced_zero] at h0
    exact (h0.mono fun _ h => .inl h).bind fun h1 =>
      (hb (State.reached_of_increment h1)).mono fun _ h => .inr h
  refine ⟨fun hn => ?_, fun f hn => ?_⟩
  · rw [runBody, if_pos h, hf.1 hn]
    rfl
  · obtain ⟨u, hu, hP⟩ := hf.2 f hn
    exact ⟨u, by rw [runBody, if_pos h, hu]; rfl, hP⟩

/-- Every step of a body is a next state. -/
theorem runBody_next (body : State → SubStep Unit) (s : State) : ∃ t, runBody body s = .next t := by
  unfold runBody
  split <;> exact ⟨_, rfl⟩

/-- Every instruction is a next state. -/
theorem exec_next (i : Instr) (s : State) : ∃ t, exec i s = .next t := by
  cases i <;> exact runBody_next _ _

/-- Every step of the core is a next state. -/
theorem coreStep_next (s : State) : ∃ t, coreStep s = .next t := by
  unfold coreStep
  split
  · split
    · exact exec_next _ _
    · exact ⟨_, rfl⟩
  · exact ⟨s, rfl⟩

end Sys2Proof.Machine
end

