-- ==== Sys2Proof/Laws/Exec.lean ====
section
/-!
SUPPORT. What a step of the core can do, said once (`exec_does`, `coreStep_cases`): the inversion lemmas that invariants,
frames and results are derived from.
-/

namespace Sys2Proof.Machine

/-- The state an instruction completes in, where none of its checks fails. -/
def State.completed (s : State) : Instr → State
  | .add m1 m2 m3 =>
    (s.advanced 4).setMem (s.mem.write (s.operandAddr m3 3) (s.operand m1 1 + s.operand m2 2))
  | .multiply m1 m2 m3 =>
    (s.advanced 4).setMem (s.mem.write (s.operandAddr m3 3) (s.operand m1 1 * s.operand m2 2))
  | .lessThan m1 m2 m3 =>
    (s.advanced 4).setMem (s.mem.write (s.operandAddr m3 3) (if s.operand m1 1 < s.operand m2 2 then 1 else 0))
  | .equals m1 m2 m3 =>
    (s.advanced 4).setMem (s.mem.write (s.operandAddr m3 3) (if s.operand m1 1 = s.operand m2 2 then 1 else 0))
  | .readInput m1 _ _ =>
    ((s.advanced 2).setIq s.iq.tail).setMem (s.mem.write (s.operandAddr m1 1) (s.iq.headD 0))
  | .writeOutput m1 _ _ => (s.advanced 2).setOq (s.oq ++ [s.operand m1 1])
  | .jumpIfTrue m1 m2 _ => if s.operand m1 1 ≠ 0 then s.setIp (s.operand m2 2) else s.advanced 3
  | .jumpIfFalse m1 m2 _ => if s.operand m1 1 = 0 then s.setIp (s.operand m2 2) else s.advanced 3
  | .adjustRelativeBase m1 _ _ => (s.advanced 2).setRb (s.rb + s.operand m1 1)
  | .halt _ _ _ => (s.setIp s.cfg.haltSentinel).setStatus s.status.enterHalted

/-- R249: the states an instruction can fault in. -/
def State.Partial (s : State) (i : Instr) (u : State) : Prop :=
  s.Within i.length u ∨ (opcodeOf i = 3 ∧ s.Reached 2 ∧ u = (s.advanced 2).setIq s.iq.tail)

theorem aluExact_nz_eq_one (a b : Int) : aluExact .nz a b = 1 ↔ a ≠ 0 := by
  simp only [aluExact]
  split <;> simp_all

theorem aluExact_nz_eq_zero (a b : Int) : aluExact .nz a b = 0 ↔ a = 0 := by
  simp only [aluExact]
  split <;> simp_all

/-- From a body's lemma to its instruction's. -/
theorem exec_does_of_body {i : Instr} {body : State → SubStep Unit} {s t : State} {cs : List Check}
    {P : State → Prop} (h : s.Running) (hb : s.Reached 1 → Does (body (s.advanced 1)) cs P () t) (hcs : cs = s.bodyChecks i)
    (hP : ∀ u, P u → s.Partial i u) :
    (firstFailure (s.incrementCheck 0 :: s.bodyChecks i) = none → runBody body s = .next t) ∧
    ∀ f, firstFailure (s.incrementCheck 0 :: s.bodyChecks i) = some f →
      ∃ u, runBody body s = .next (faultEntry s.ip (s.mem.read s.ip) f u) ∧ s.Partial i u := by
  subst hcs
  obtain ⟨h1, h2⟩ := runBody_does h hb
  refine ⟨h1, fun f hf => ?_⟩
  obtain ⟨u, hu, h3⟩ := h2 f hf
  refine ⟨u, hu, h3.elim (fun e => .inl ⟨0, Nat.zero_le _, .inl rfl, ?_⟩) (hP u)⟩
  rw [e, State.advanced_zero]

/-- R114, R118, R249, R251: everything an instruction can do on a Running core. -/
theorem exec_does (i : Instr) {s : State} (h : s.Running) (hv : s.cfg.Valid) :
    (firstFailure (s.incrementCheck 0 :: s.bodyChecks i) = none → exec i s = .next (s.completed i)) ∧
    ∀ f, firstFailure (s.incrementCheck 0 :: s.bodyChecks i) = some f →
      ∃ u, exec i s = .next (faultEntry s.ip (s.mem.read s.ip) f u) ∧ s.Partial i u := by
  cases i with
  | add m1 m2 m3 =>
    exact exec_does_of_body h (aluBody_does s .add m1 m2 m3) (by simp [State.bodyChecks, aluExact]) fun _ => .inl
  | multiply m1 m2 m3 =>
    exact exec_does_of_body h (aluBody_does s .mul m1 m2 m3) (by simp [State.bodyChecks, aluExact]) fun _ => .inl
  | lessThan m1 m2 m3 =>
    refine exec_does_of_body h (fun h => aluBody_bit_does s .lt m1 m2 m3 h hv fun a b => ?_)
      (by simp [State.bodyChecks]) fun _ => .inl
    simp only [aluExact]
    split <;> simp
  | equals m1 m2 m3 =>
    refine exec_does_of_body h (fun h => aluBody_bit_does s .eq m1 m2 m3 h hv fun a b => ?_)
      (by simp [State.bodyChecks]) fun _ => .inl
    simp only [aluExact]
    split <;> simp
  | readInput m1 m2 m3 =>
    exact exec_does_of_body h (readInputBody_does s m1) (by simp [State.bodyChecks])
      fun _ hu => hu.imp id fun hu => ⟨rfl, hu⟩
  | writeOutput m1 m2 m3 =>
    exact exec_does_of_body h (writeOutputBody_does s m1) (by simp [State.bodyChecks]) fun _ => .inl
  | jumpIfTrue m1 m2 m3 =>
    have hb := fun h => jumpBody_does s 1 m1 m2 h hv
    simp only [aluExact_nz_eq_one] at hb
    have := exec_does_of_body (i := .jumpIfTrue m1 m2 m3) h hb (by simp [State.bodyChecks]) fun _ => .inl
    simp only [decide_eq_true_eq] at this
    exact this
  | jumpIfFalse m1 m2 m3 =>
    have hb := fun h => jumpBody_does s 0 m1 m2 h hv
    simp only [aluExact_nz_eq_zero] at hb
    have := exec_does_of_body (i := .jumpIfFalse m1 m2 m3) h hb (by simp [State.bodyChecks]) fun _ => .inl
    simp only [decide_eq_true_eq] at this
    exact this
  | adjustRelativeBase m1 m2 m3 =>
    exact exec_does_of_body h (adjustRelativeBaseBody_does s m1) (by simp [State.bodyChecks]) fun _ => .inl
  | halt m1 m2 m3 =>
    exact exec_does_of_body h (fun _ => haltBody_does s (s.Within 1)) rfl fun _ => .inl

/-- An instruction does nothing on a core that is not Running (R110, R120). -/
theorem exec_of_not_running (i : Instr) {s : State} (h : ¬s.Running) : exec i s = .next s := by
  cases i <;> exact runBody_of_not_running h

/-- R120. -/
theorem coreStep_of_not_running {s : State} (h : ¬s.Running) : coreStep s = .next s := if_neg h

/-- R114, R124: a step whose word decodes is a step of the instruction. -/
theorem coreStep_of_decode {s : State} {i : Instr} (h : s.Running) (hd : decodeAtIp s = .ok i) :
    coreStep s = exec i s := by
  rw [coreStep, if_pos h, hd]

/-- R112: a step whose word does not decode. -/
theorem coreStep_of_error {s : State} {e : DecodeErr} (h : s.Running) (hd : decodeAtIp s = .error e) :
    ∃ f u, firstFailure s.stepChecks = some f ∧ coreStep s = .next (faultEntry s.ip (s.mem.read s.ip) f u)
      ∧ s.Within 1 u := by
  have h0 := fetchWord_does s 0
  simp only [Fin.val_zero, State.advanced_zero] at h0
  rw [coreStep, if_pos h, hd]
  simp only [State.stepChecks, hd, State.incrementCheck, firstFailure_cons] at h0 ⊢
  by_cases hw : decide (¬s.cfg.IsWord (s.ip + (0 : Fin 4).val + 1)) = true
  · obtain ⟨u, hu, hus⟩ := h0.2 _ (if_pos hw)
    refine ⟨_, u, if_pos hw, by simp only [hu]; rfl, ⟨0, Nat.zero_le _, .inl rfl, by rw [hus, State.advanced_zero]⟩⟩
  · have h1 := h0.1 (if_neg hw)
    refine ⟨_, s.advanced 1, (if_neg hw).trans (if_pos trivial), by simp only [h1]; rfl,
      ⟨1, le_rfl, State.reached_of_increment (k := 0) (cs := []) (if_neg hw), rfl⟩⟩

/-- Everything a step of a Running core can do: an instruction completes, or the first check that fails raises its fault,
in a state where some Words have been read and, for `read_input`, IQ may have been popped (R112, R118, R249, R251). -/
theorem coreStep_cases {s t : State} (h : s.Running) (hv : s.cfg.Valid) (ht : coreStep s = .next t) :
    (∃ i, decodeAtIp s = .ok i ∧ firstFailure s.stepChecks = none ∧ t = s.completed i) ∨
    ∃ f u, firstFailure s.stepChecks = some f ∧ t = faultEntry s.ip (s.mem.read s.ip) f u ∧
      (s.Within 1 u ∨ ∃ i, decodeAtIp s = .ok i ∧ s.Partial i u) := by
  cases hd : decodeAtIp s with
  | error e =>
    obtain ⟨f, u, hf, hu, hw⟩ := coreStep_of_error h hd
    rw [hu] at ht
    exact .inr ⟨f, u, hf, (Host.Outcome.next.inj ht).symm, .inl hw⟩
  | ok i =>
    obtain ⟨h1, h2⟩ := exec_does i h hv
    have hsc : s.stepChecks = s.incrementCheck 0 :: s.bodyChecks i := by simp only [State.stepChecks, hd]
    rw [coreStep_of_decode h hd] at ht
    rw [hsc]
    cases hf : firstFailure (s.incrementCheck 0 :: s.bodyChecks i) with
    | none =>
      rw [h1 hf] at ht
      exact .inl ⟨i, rfl, rfl, (Host.Outcome.next.inj ht).symm⟩
    | some f =>
      obtain ⟨u, hu, hP⟩ := h2 f hf
      rw [hu] at ht
      exact .inr ⟨f, u, rfl, (Host.Outcome.next.inj ht).symm, .inr ⟨i, rfl, hP⟩⟩

end Sys2Proof.Machine
end

