-- ==== Sys2Proof/Laws/Checks.lean ====
section
/-!
SUPPORT. The checks of a step one by one: what a check that does not fail says, which conditions on the state make it not
fail, and that the fields a fault records are Words.
-/

namespace Sys2Proof.Machine

theorem firstFailure_cons_eq_none {b : Bool} {f : FaultInfo} {cs : List Check} :
    firstFailure ((b, f) :: cs) = none ↔ b = false ∧ firstFailure cs = none := by
  cases b <;> simp [firstFailure]

theorem firstFailure_append_eq_none {cs ds : List Check} :
    firstFailure (cs ++ ds) = none ↔ firstFailure cs = none ∧ firstFailure ds = none := by
  rw [firstFailure_append, Option.or_eq_none_iff]

/-! ## Conditions under which no check fails -/

theorem State.increment_passes {s : State} {n : Nat} (h : s.Fits n) (k : Fin 4) (hk : k.val + 1 ≤ n) (cs : List Check) :
    firstFailure (s.incrementCheck k :: cs) = firstFailure cs := by
  rw [State.incrementCheck, firstFailure_cons, if_neg]
  rw [decide_eq_true_eq, not_not]
  have h1 := h.1
  have h2 := h.2
  constructor <;> omega

theorem State.address_passes {s : State} {m : Mode} {k : Fin 4} (h : s.CanAddress m k.val) :
    firstFailure (s.addressChecks m k) = none := by
  rw [State.addressChecks, firstFailure_cons_eq_none, firstFailure_cons_eq_none]
  refine ⟨decide_eq_false fun h' => h'.2 (h.1 h'.1), decide_eq_false fun h' => ?_, rfl⟩
  have := h.2 h'.2
  omega

theorem State.source_passes {s : State} {n : Nat} (hf : s.Fits n) {m : Mode} {k : Fin 4} (hk : k.val + 1 ≤ n)
    (h : s.CanLoad m k.val) : firstFailure (s.sourceChecks m k) = none := by
  rw [State.sourceChecks, State.increment_passes hf k hk]
  split
  · rfl
  · rename_i hm
    exact State.address_passes (h.resolve_left hm)

theorem State.store_passes {s : State} {m : Mode} {k : Fin 4} (h : s.CanStore m k.val) :
    firstFailure (s.storeChecks m k) = none := by
  rw [State.storeChecks, if_neg h.1, firstFailure_append, State.address_passes h.2.1, Option.none_or,
    firstFailure_cons_eq_none]
  refine ⟨decide_eq_false fun h' => ?_, rfl⟩
  rcases h.2.2 with h2 | h2
  · exact h'.1 h2
  · rw [h2] at h'
    simp at h'

theorem State.result_passes {s : State} {v : Int} (h : s.cfg.IsWord v) (cs : List Check) :
    firstFailure (s.resultCheck v :: cs) = firstFailure cs := by
  rw [State.resultCheck, firstFailure_cons, if_neg]
  simpa using h

theorem State.result_fails {s : State} {v : Int} (h : ¬s.cfg.IsWord v) (cs : List Check) :
    firstFailure (s.resultCheck v :: cs) = some ⟨.overflowFault, 0, 3⟩ := by
  rw [State.resultCheck, firstFailure_cons, if_pos]
  exact decide_eq_true h

/-! ## What checks that do not fail say -/

theorem State.isWord_of_increment {s : State} {k : Fin 4} {cs : List Check}
    (h : firstFailure (s.incrementCheck k :: cs) = none) :
    s.cfg.IsWord (s.ip + (k.val + 1 : Nat)) ∧ firstFailure cs = none := by
  refine ⟨(State.reached_of_increment h).resolve_left (by omega), ?_⟩
  rw [State.incrementCheck, firstFailure_cons_eq_none] at h
  exact h.2

theorem State.isWord_of_result {s : State} {v : Int} {cs : List Check}
    (h : firstFailure (s.resultCheck v :: cs) = none) : s.cfg.IsWord v ∧ firstFailure cs = none := by
  rw [State.resultCheck, firstFailure_cons_eq_none] at h
  exact ⟨not_not.1 (of_decide_eq_false h.1), h.2⟩

theorem State.of_address {s : State} {m : Mode} {k : Fin 4} (h : firstFailure (s.addressChecks m k) = none) :
    s.CanAddress m k.val := by
  rw [State.addressChecks, firstFailure_cons_eq_none, firstFailure_cons_eq_none] at h
  obtain ⟨h1, h2, -⟩ := h
  refine ⟨fun hm => ?_, fun hp => ?_⟩
  · by_contra hn
    exact of_decide_eq_false h1 ⟨hm, hn⟩
  · by_contra hn
    exact of_decide_eq_false h2 ⟨by omega, hp⟩

theorem State.of_store {s : State} {m : Mode} {k : Fin 4} (h : firstFailure (s.storeChecks m k) = none) :
    s.CanStore m k.val := by
  rw [State.storeChecks] at h
  split at h
  · simp [firstFailure] at h
  · rename_i hm
    rw [firstFailure_append_eq_none, firstFailure_cons_eq_none] at h
    refine ⟨hm, State.of_address h.1, ?_⟩
    by_contra hn
    rw [not_or, Bool.not_eq_true] at hn
    exact of_decide_eq_false h.2.1 hn

/-! ## States that meet the invariant -/

theorem Inv.isWord_read {s : State} (h : Inv s) (a : Int) : s.cfg.IsWord (s.mem.read a) := by
  rcases s.mem.read_eq_zero_or_mem a with h0 | h0
  · rw [h0]
    exact Config.isWord_of_valid h.cfgValid (by norm_num) (by norm_num)
  · exact h.memWords _ h0

theorem Inv.isWord_operand {s : State} (h : Inv s) (m : Mode) (k : Nat) : s.cfg.IsWord (s.operand m k) := by
  cases m <;> exact h.isWord_read _

theorem Inv.isWord_operandAddr {s : State} (h : Inv s) {m : Mode} {k : Nat} (hc : s.CanAddress m k) :
    s.cfg.IsWord (s.operandAddr m k) := by
  cases m
  · exact h.isWord_read _
  · exact h.isWord_read _
  · exact hc.1 rfl

/-- R24: IP is a valid address while Running. -/
theorem Inv.ip_nonneg {s : State} (h : Inv s) (hr : s.Running) : 0 ≤ s.ip := by
  by_contra hn
  have := h.haltedIff.2 (by omega)
  rw [hr] at this
  cases this

theorem Inv.setIp {s : State} (h : Inv s) (hr : s.Running) {v : Int} (h0 : 0 ≤ v) (hw : s.cfg.IsWord v) :
    Inv (s.setIp v) := by
  have hs : s.status.state = .running := hr
  exact { h with
    ipWord := hw
    haltedIff := ⟨fun hh => absurd (hs.symm.trans hh) (by decide), fun hh => absurd hh (not_lt.2 h0)⟩ }

theorem Inv.advanced {s : State} (h : Inv s) (hr : s.Running) {n : Nat} (hw : s.Reached n) : Inv (s.advanced n) := by
  rcases hw with rfl | hw
  · rwa [State.advanced_zero]
  · exact h.setIp hr (by have := h.ip_nonneg hr; omega) hw

/-- R53: a store keeps the invariant. -/
theorem Inv.setMem_write {s : State} (h : Inv s) {a v : Int} (hv : s.cfg.IsWord v)
    (ha : s.cfg.IsWord a ∧ (s.cfg.negAddrPolicy = .fault → 0 ≤ a))
    (hc : s.mem.Present a ∨ hasRoom s.cfg.memCapacity s.mem.count = true) : Inv (s.setMem (s.mem.write a v)) := by
  have hp : ∀ b, (s.mem.write a v).Present b → s.cfg.IsWord b ∧ (s.cfg.negAddrPolicy = .fault → 0 ≤ b) := by
    intro b hb
    rcases (s.mem.present_write a v b).1 hb with rfl | hb | hb
    · exact ha
    · exact h.cellsValid b hb
    · exact h.zerosValid b hb
  refine { h with
    memWf := Memory.write_wf h.memWf a v
    memWords := fun e he => ?_
    cellsValid := fun b hb => hp b (.inl hb)
    zerosValid := fun b hb => hp b (.inr hb)
    memFits := fun cap hcap => ?_ }
  · rcases Memory.mem_cells_write he with rfl | he
    · exact hv
    · exact h.memWords e he
  · simp only [State.setMem_mem, State.setMem_cfg, Memory.count_write h.memWf] at hcap ⊢
    have hf := h.memFits cap hcap
    split
    · omega
    · rename_i hn
      have hroom := hc.resolve_left hn
      rw [Option.mem_def.1 hcap] at hroom
      simp only [hasRoom, decide_eq_true_eq] at hroom
      omega

end Sys2Proof.Machine
end

