-- ==== Sys2Proof/Laws/PerInstr.lean ====
section
/-!
SUPPORT. Statements about every instruction, as syntax.

`Window`: the instruction word of an instruction uses exactly the five digits of 30_encoding.md R81: it lies in `0 .. 99999`,
its two low digits are the opcode of R86, and its digits 2, 3 and 4 are mode digits (R84).
-/

namespace Sys2Proof.Laws.Window

/-- The instruction word of `i` lies in the five-digit window, with its opcode and its three mode digits in their places. -/
def Statement (i : Instr) : Prop :=
  0 ≤ encode i ∧ encode i < 100000 ∧ encode i % 100 = opcodeOf i ∧ encode i / 100 % 10 ≤ 2 ∧ encode i / 1000 % 10 ≤ 2 ∧
    encode i / 10000 % 10 ≤ 2

theorem digit_le (m : Mode) : digitOfMode m ≤ 2 := by
  cases m <;> decide

/-- Any opcode below 100 with any three modes. -/
theorem of_parts {i : Instr} (h : opcodeOf i < 100) : Statement i := by
  have h1 := digit_le (modesOf i).1
  have h2 := digit_le (modesOf i).2.1
  have h3 := digit_le (modesOf i).2.2
  simp only [Statement, encode, Int.ofNat_eq_natCast]
  omega

theorem add (m1 m2 m3 : Mode) : Statement (.add m1 m2 m3) := of_parts (by simp [opcodeOf])
theorem multiply (m1 m2 m3 : Mode) : Statement (.multiply m1 m2 m3) := of_parts (by simp [opcodeOf])
theorem readInput (m1 m2 m3 : Mode) : Statement (.readInput m1 m2 m3) := of_parts (by simp [opcodeOf])
theorem writeOutput (m1 m2 m3 : Mode) : Statement (.writeOutput m1 m2 m3) := of_parts (by simp [opcodeOf])
theorem jumpIfTrue (m1 m2 m3 : Mode) : Statement (.jumpIfTrue m1 m2 m3) := of_parts (by simp [opcodeOf])
theorem jumpIfFalse (m1 m2 m3 : Mode) : Statement (.jumpIfFalse m1 m2 m3) := of_parts (by simp [opcodeOf])
theorem lessThan (m1 m2 m3 : Mode) : Statement (.lessThan m1 m2 m3) := of_parts (by simp [opcodeOf])
theorem equals (m1 m2 m3 : Mode) : Statement (.equals m1 m2 m3) := of_parts (by simp [opcodeOf])
theorem adjustRelativeBase (m1 m2 m3 : Mode) : Statement (.adjustRelativeBase m1 m2 m3) := of_parts (by simp [opcodeOf])
theorem halt (m1 m2 m3 : Mode) : Statement (.halt m1 m2 m3) := of_parts (by simp [opcodeOf])

end Sys2Proof.Laws.Window
end

