-- ==== Sys2Proof/Laws/Run.lean ====
section
/-!
SUPPORT. What a host command adds around a step of the core, said once: `accept`, `finish`, `turn` and `step`.
-/

namespace Sys2Proof.Machine

@[simp] theorem accept_cfg (c : Command) (s : State) : (accept c s).cfg = s.cfg := rfl
@[simp] theorem accept_ip (c : Command) (s : State) : (accept c s).ip = s.ip := rfl
@[simp] theorem accept_rb (c : Command) (s : State) : (accept c s).rb = s.rb := rfl
@[simp] theorem accept_mem (c : Command) (s : State) : (accept c s).mem = s.mem := rfl
@[simp] theorem accept_iq (c : Command) (s : State) : (accept c s).iq = s.iq := rfl
@[simp] theorem accept_oq (c : Command) (s : State) : (accept c s).oq = s.oq := rfl
@[simp] theorem accept_fr (c : Command) (s : State) : (accept c s).fr = s.fr := rfl
@[simp] theorem accept_status (c : Command) (s : State) : (accept c s).status = s.status.accept c := rfl
@[simp] theorem accept_decodeAtIp (c : Command) (s : State) : decodeAtIp (accept c s) = decodeAtIp s := rfl

@[simp] theorem finish_cfg (r : Reply) (s : State) : (finish r s).cfg = s.cfg := by cases r <;> rfl
@[simp] theorem finish_ip (r : Reply) (s : State) : (finish r s).ip = s.ip := by cases r <;> rfl
@[simp] theorem finish_rb (r : Reply) (s : State) : (finish r s).rb = s.rb := by cases r <;> rfl
@[simp] theorem finish_mem (r : Reply) (s : State) : (finish r s).mem = s.mem := by cases r <;> rfl
@[simp] theorem finish_iq (r : Reply) (s : State) : (finish r s).iq = s.iq := by cases r <;> rfl
@[simp] theorem finish_fr (r : Reply) (s : State) : (finish r s).fr = s.fr := by cases r <;> rfl
@[simp] theorem finish_status (r : Reply) (s : State) : (finish r s).status = s.status.release (exitOf r) := by
  cases r <;> rfl

/-- A command in progress is the command the machine's step goes on with. -/
theorem accept_of_busy {c : Command} {s : State} (h : s.status.busy = some c) : accept c s = s := by
  obtain ⟨cfg, ip, rb, mem, iq, oq, ⟨state, code, exit, busy⟩, fr⟩ := s
  simp only at h
  subst h
  rfl

theorem currentCommand_of_idle {s : State} (h : s.Idle) : currentCommand s = .step := by
  simp [currentCommand, h]

theorem currentCommand_of_busy {c : Command} {s : State} (h : s.status.busy = some c) : currentCommand s = c := by
  simp [currentCommand, h]

/-- Everything one pass of a command's loop can do (R216 to R219): it exits by its loop decision, or it makes a step of the
core, after which `step()` returns and a run command goes round. -/
theorem turn_cases {c : Command} {s t : State} {r : Option Reply} (h : turn c s = .next (r, t)) :
    (∃ q, loopDecision c s = some q ∧ r = some q ∧ t = finish q s) ∨
    ∃ u, loopDecision c s = none ∧ coreStep s = .next u ∧
      ((c = .step ∧ r = some (stepReply u) ∧ t = finish (stepReply u) u) ∨ (c ≠ .step ∧ r = none ∧ t = u)) := by
  unfold turn at h
  cases hd : loopDecision c s with
  | some q =>
    simp only [hd, Host.Outcome.next.injEq, Prod.mk.injEq] at h
    exact .inl ⟨q, rfl, h.1.symm, h.2.symm⟩
  | none =>
    obtain ⟨u, hu⟩ := coreStep_next s
    simp only [hd, hu, Host.Outcome.next.injEq] at h
    refine .inr ⟨u, rfl, hu, ?_⟩
    cases c <;> simp only [afterStep, Prod.mk.injEq] at h <;> simp [h.1, h.2]

/-- Every pass is a next state. -/
theorem turn_next (c : Command) (s : State) : ∃ r t, turn c s = .next (r, t) := by
  unfold turn
  split
  · exact ⟨_, _, rfl⟩
  · obtain ⟨u, hu⟩ := coreStep_next s
    simp only [hu]
    exact ⟨_, _, rfl⟩

/-- The machine's step is one pass of the current command. -/
theorem step_cases {s t : State} (h : step s = .next t) :
    ∃ r, turn (currentCommand s) (accept (currentCommand s) s) = .next (r, t) := by
  obtain ⟨r, u, hu⟩ := turn_next (currentCommand s) (accept (currentCommand s) s)
  have : step s = .next u := by simp only [step, nextTurn, hu]
  rw [this] at h
  exact ⟨r, Host.Outcome.next.inj h ▸ hu⟩

/-- One pass fewer, where the first pass does not return. -/
theorem runTurns_succ (n : Nat) (c : Command) (s : State) :
    runTurns (n + 1) c s =
      match turn c s with
      | .next (some r, t) => some (r, t)
      | .next (none, t) => runTurns n c t
      | .fault _ => none
      | .refused _ => none := rfl

/-- A command that has returned within `n` passes returns the same within more. -/
theorem runTurns_mono {c : Command} {p : Reply × State} :
    ∀ {n : Nat} {s : State}, runTurns n c s = some p → ∀ m, n ≤ m → runTurns m c s = some p
  | 0, _, h, _, _ => by simp [runTurns] at h
  | n + 1, s, h, 0, hm => by omega
  | n + 1, s, h, m + 1, hm => by
    rw [runTurns_succ] at h ⊢
    obtain ⟨r, t, ht⟩ := turn_next c s
    rw [ht] at h ⊢
    cases r with
    | some q => exact h
    | none => exact runTurns_mono h m (by omega)

/-- The first of the steps of a run. -/
theorem State.afterSteps_succ {s t : State} (h : coreStep s = .next t) (n : Nat) :
    s.afterSteps (n + 1) = t.afterSteps n := by
  rw [State.afterSteps, h]

/-- The last of the steps of a run. -/
theorem State.coreStep_afterSteps (n : Nat) (s : State) :
    coreStep (s.afterSteps n) = .next (s.afterSteps (n + 1)) := by
  obtain ⟨t, ht⟩ := coreStep_next s
  induction n generalizing s t with
  | zero => rwa [State.afterSteps_succ ht]
  | succ k ih =>
    obtain ⟨u, hu⟩ := coreStep_next t
    rw [State.afterSteps_succ ht, State.afterSteps_succ ht]
    exact ih t u hu

/-- Everything a run command can do within `n` passes: it returns by the first loop decision among the states its steps
reach, if one of the first `n` states has one (R217 to R219). -/
theorem runTurns_eq_some {c : Command} (hc : c ≠ .step) {n : Nat} {s t : State} {r : Reply} :
    runTurns n c s = some (r, t) ↔ ∃ k < n, (∀ j < k, loopDecision c (s.afterSteps j) = none) ∧
      loopDecision c (s.afterSteps k) = some r ∧ t = finish r (s.afterSteps k) := by
  induction n generalizing s with
  | zero => simp [runTurns]
  | succ n ih =>
    obtain ⟨u, hu⟩ := coreStep_next s
    cases hd : loopDecision c s with
    | some q =>
      have h : runTurns (n + 1) c s = some (q, finish q s) := by simp only [runTurns_succ, turn, hd]
      rw [h]
      constructor
      · rintro ⟨⟩
        exact ⟨0, Nat.succ_pos n, fun j hj => absurd hj (Nat.not_lt_zero j), hd, rfl⟩
      · rintro ⟨k, -, hk, hr, rfl⟩
        cases k with
        | zero =>
          obtain rfl : q = r := Option.some.inj (hd.symm.trans hr)
          rfl
        | succ k => exact absurd (hd.symm.trans (hk 0 (Nat.succ_pos k))) (by simp)
    | none =>
      have h : runTurns (n + 1) c s = runTurns n c u := by
        cases c <;> first | exact absurd rfl hc | simp only [runTurns_succ, turn, hd, hu, afterStep]
      rw [h, ih]
      constructor
      · rintro ⟨k, hk, h1, h2, h3⟩
        refine ⟨k + 1, by omega, fun j hj => ?_, by rwa [State.afterSteps_succ hu], by rwa [State.afterSteps_succ hu]⟩
        cases j with
        | zero => exact hd
        | succ j =>
          rw [State.afterSteps_succ hu]
          exact h1 j (by omega)
      · rintro ⟨k, hk, h1, h2, h3⟩
        cases k with
        | zero => exact absurd (hd.symm.trans h2) (by simp)
        | succ k =>
          rw [State.afterSteps_succ hu] at h2 h3
          refine ⟨k, by omega, fun j hj => ?_, h2, h3⟩
          rw [← State.afterSteps_succ hu]
          exact h1 (j + 1) (by omega)

end Sys2Proof.Machine
end

