-- ==== Sys2Proof/Tests/Slice0.lean ====
section
/-!
SUPPORT. The model's own tests: words decoded by hand from the encodings of the spec, ill-formed terms that the checks
refuse, single steps whose results stand in spec/95_test_vectors.md, and, for every statement with hypotheses, a concrete
case that meets them, clause by clause.
-/

namespace Sys2Proof.Tests

open Sys2Proof.Machine

/-! ## Helpers -/

/-- `WORD_MAX` and `WORD_MIN` of this hardware, as 95_test_vectors.md writes them. -/
def maxWord : Int := 9223372036854775807

/-- See `maxWord`. -/
def minWord : Int := -9223372036854775808

/-- A Running, idle core whose memory holds the program, with parameters `c`. -/
def coreWith (c : Config) (program : List Int) : State :=
  (State.initial c).setMem (Memory.load ⟨[], []⟩ 0 program)

/-- The same under the parameters of this hardware. -/
def core (program : List Int) : State := coreWith Config.standard program

/-- The parameters of this hardware but for one. -/
def mapConfig : Config := { Config.standard with negAddrPolicy := .map }

/-- See `mapConfig`. -/
def highConfig : Config := { Config.standard with highDigitPolicy := .fault }

/-- See `mapConfig`. -/
def smallConfig (cap : Nat) : Config := { Config.standard with memCapacity := some cap }

/-- See `mapConfig`. -/
def queueConfig (cap : Nat) : Config := { Config.standard with iqCapacity := some cap, oqCapacity := some cap }

/-- The next state of an outcome, if it is one. -/
def nextOf (o : Host.Outcome State Fault Refusal) : Option State :=
  match o with
  | .next t => some t
  | .fault _ => none
  | .refused _ => none

/-- The state after the host command `step()`. -/
def stepped (s : State) : State := (nextOf (step s)).getD State.reset

/-- The state after one step of the core. -/
def cored (s : State) : State := (nextOf (coreStep s)).getD State.reset

/-- The state after one instruction. -/
def ran (i : Instr) (s : State) : State := (nextOf (exec i s)).getD State.reset

/-- A core that has halted, and one that has faulted. -/
def haltedCore : State := stepped (core [99])

/-- See `haltedCore`. -/
def faultedCore : State := stepped (core [1105, 1, -5])

/-! ## Decoding: words written out from 30_encoding.md, and the table of 95_test_vectors.md section 2.1 -/

theorem test_decode_add : decode .ignore 1 = .ok (.add .position .position .position) := by decide
theorem test_decode_add_modes : decode .ignore 21001 = .ok (.add .position .immediate .relative) := by decide
theorem test_decode_multiply : decode .fault 22202 = .ok (.multiply .relative .relative .relative) := by decide
theorem test_decode_read_input : decode .fault 1203 = .ok (.readInput .relative .immediate .position) := by decide
theorem test_decode_write_output : decode .ignore 104 = .ok (.writeOutput .immediate .position .position) := by decide
theorem test_decode_jump_if_true : decode .ignore 1105 = .ok (.jumpIfTrue .immediate .immediate .position) := by decide
theorem test_decode_jump_if_false : decode .ignore 206 = .ok (.jumpIfFalse .relative .position .position) := by decide
theorem test_decode_less_than : decode .ignore 21107 = .ok (.lessThan .immediate .immediate .relative) := by decide
theorem test_decode_equals : decode .ignore 1008 = .ok (.equals .position .immediate .position) := by decide
theorem test_decode_adjust : decode .ignore 109 = .ok (.adjustRelativeBase .immediate .position .position) := by decide
theorem test_decode_halt : decode .ignore 1000099 = .ok (.halt .position .position .position) := by decide
theorem test_decode_high_digits : decode .fault 1000099 = .error .highDigits := by decide
theorem test_decode_high_before_opcode : decode .fault 123456 = .error .highDigits := by decide
theorem test_decode_bad_opcode : decode .ignore 123456 = .error .badOpcode := by decide
theorem test_decode_opcode_zero : decode .ignore 100 = .error .badOpcode := by decide
theorem test_decode_opcode_98 : decode .fault 98 = .error .badOpcode := by decide
theorem test_decode_opcode_before_modes : decode .ignore 99943 = .error .badOpcode := by decide
theorem test_decode_bad_mode_1 : decode .ignore 303 = .error (.badMode 1) := by decide
theorem test_decode_bad_mode_2 : decode .ignore 3099 = .error (.badMode 2) := by decide
theorem test_decode_bad_mode_3 : decode .ignore 30001 = .error (.badMode 3) := by decide
theorem test_decode_negative : decode .ignore (-99) = .error .negativeWord := by decide

/-- 30_encoding.md R92: the line of Scenario B takes four Words, and the next line starts after them. -/
theorem test_decode_line : decodeLine .ignore [1002, 4, 3, 4, 33] =
    some (⟨.multiply .position .immediate .position, [4, 3, 4]⟩, [33]) := by decide

theorem test_decode_line_cut_off : decodeLine .ignore [1002, 4, 3] = none := by decide

/-- 30_encoding.md R96: `multiply [rb], [rb+1], [rb+2]` of program P2. -/
theorem test_encode : encodeLine ⟨.multiply .relative .relative .relative, [0, 1, 2]⟩ = [22202, 0, 1, 2] := by decide

theorem test_table_word : decodeTableWord 16 1002 = some (.multiply .position .immediate .position) := by decide

/-- A first Word of 64 ones is -1, which is no instruction (R83). -/
theorem test_table_word_negative : decodeTableWord 64 18446744073709551615 = none := by decide

/-- The bits of a parameter word, above the first Word, do not take part in decoding. -/
theorem test_table_word_parameters : decodeTableWord 128 (5 * 18446744073709551616 + 109) =
    some (.adjustRelativeBase .immediate .position .position) := by decide

/-- `step` runs the instruction placed at reset: `adjust_relative_base #5`. -/
theorem test_fetch_word : (stepped (State.reset.withFetchWord 128 (5 * 18446744073709551616 + 109))).rb = 5 := by decide

/-! ## What is not well formed -/

theorem test_config_width : ¬{ Config.standard with wordBits := 63 }.Valid := by decide
theorem test_config_sentinel_sign : ¬{ Config.standard with haltSentinel := 0 }.Valid := by decide
theorem test_config_sentinel_range : ¬{ Config.standard with haltSentinel := minWord - 1 }.Valid := by decide
theorem test_config_standard : Config.standard.Valid := by decide
theorem test_line_too_few : ¬Line.WellFormed Config.standard ⟨.add .position .position .position, [1, 2]⟩ := by decide
theorem test_line_too_many : ¬Line.WellFormed Config.standard ⟨.halt .position .position .position, [1]⟩ := by decide
theorem test_line_no_word : ¬Line.WellFormed Config.standard
    ⟨.writeOutput .immediate .position .position, [maxWord + 1]⟩ := by decide
theorem test_program_no_word : ¬Config.standard.Accepts [99, minWord - 1] := by decide
theorem test_program_too_long : ¬(smallConfig 1).Accepts [99, 99] := by decide
theorem test_construct_refused : construct (smallConfig 1) [99, 99] = none := by decide

/-! ## Single steps (95_test_vectors.md sections 1 and 2) -/

/-- 2.3: read before write. -/
theorem test_add_alias : (stepped (core [1, 5, 5, 5, 99, 21])).mem.read 5 = 42 := by decide

/-- 2.3: the sum leaves the Word range. -/
theorem test_add_overflow :
    (stepped (core [1, 5, 6, 7, 99, maxWord, 1])).ip = 4 ∧
    (stepped (core [1, 5, 6, 7, 99, maxWord, 1])).fr = ⟨0, 1, 0, 3⟩ ∧
    (stepped (core [1, 5, 6, 7, 99, maxWord, 1])).status.word = 0x0452 ∧
    ¬(stepped (core [1, 5, 6, 7, 99, maxWord, 1])).mem.Present 7 := by decide

/-- 1.2: Scenario B writes the next instruction word. -/
theorem test_multiply_scenario_b :
    decodeAtIp (stepped (core [1002, 4, 3, 4, 33])) = .ok (.halt .position .position .position) := by decide

/-- 2.3: a product equal to WORD_MIN fits. -/
theorem test_multiply_min :
    (stepped (core [2, 5, 6, 7, 99, -4294967296, 2147483648])).mem.read 7 = minWord := by decide

/-- 2.3: the comparison is signed. -/
theorem test_less_than_signed : (stepped (core [1107, minWord, maxWord, 5, 99])).mem.read 5 = 1 := by decide

/-- 2.3: `less_than(4, 4) = 0`, and the 0 is written. -/
theorem test_less_than_same :
    (stepped (core [1107, 4, 4, 5, 99])).mem.read 5 = 0 ∧ (stepped (core [1107, 4, 4, 5, 99])).mem.Present 5 := by decide

/-- 2.3: `equals [5], #8, [6]`. -/
theorem test_equals_true : (stepped (core [1008, 5, 8, 6, 99, 8])).mem.read 6 = 1 := by decide

/-- 2.3: 0 is not WORD_MIN. -/
theorem test_equals_false : (stepped (core [8, 5, 6, 7, 99, 0, minWord])).mem.read 7 = 0 := by decide

/-- 2.4: a `read_input` that faults at its store has lost its input. -/
theorem test_read_input_immediate :
    (stepped ((core [103, 5, 99]).setIq [9])).fr = ⟨0, 103, 1, 5⟩ ∧ (stepped ((core [103, 5, 99]).setIq [9])).iq = [] ∧
    (stepped ((core [103, 5, 99]).setIq [9])).status.word = 0x0422 := by decide

/-- 2.4: `read_input [rb-5]`. -/
theorem test_read_input_negative :
    (stepped ((core [203, -5, 99]).setIq [3])).fr = ⟨0, 203, 1, -5⟩ ∧
    (stepped ((core [203, -5, 99]).setIq [3])).status.faultCode = some .addressFault := by decide

/-- 2.4: `write_output #-7`. -/
theorem test_write_output_literal : (stepped (core [104, -7, 99])).oq = [-7] := by decide

/-- 1.6, property 3: `[4,-1,99]` under both values of `NEG_ADDR_POLICY`. -/
theorem test_write_output_negative :
    (stepped (core [4, -1, 99])).fr = ⟨0, 4, 1, -1⟩ ∧ (stepped (coreWith mapConfig [4, -1, 99])).oq = [0] := by decide

/-- 2.5: the target is the word at address 8. -/
theorem test_jump_if_false_indirect : (stepped (core [6, 7, 8, 104, -1, 99, 0, 0, 5])).ip = 5 := by decide

/-- 2.5: not taken, so the negative target does not fault. -/
theorem test_jump_if_false_not_taken :
    (stepped (core [1106, 1, -5, 99])).ip = 3 ∧ (stepped (core [1106, 1, -5, 99])).status.word = 0x0500 := by decide

/-- 2.5: a jump to the sentinel's value never halts the core. -/
theorem test_jump_if_true_sentinel :
    (stepped (core [1105, 1, -1])).ip = 3 ∧ (stepped (core [1105, 1, -1])).fr = ⟨0, 1105, 2, -1⟩ ∧
    (stepped (core [1105, 1, -1])).status.word = 0x0432 := by decide

/-- 2.5: `jump_if_true [7], #5`. -/
theorem test_jump_if_true_taken : (stepped (core [1005, 7, 5, 104, 0, 99, 0, 1])).ip = 5 := by decide

/-- 2.6: `adjust_relative_base [rb+3]`. -/
theorem test_adjust_relative : (stepped (core [209, 3, 99, -4])).rb = -4 := by decide

/-- 2.6: RB + 1 leaves the Word range. -/
theorem test_adjust_overflow :
    (stepped ((core [109, 1, 99]).setRb maxWord)).rb = maxWord ∧
    (stepped ((core [109, 1, 99]).setRb maxWord)).fr = ⟨0, 109, 0, 3⟩ := by decide

/-- 2.5: unused mode digits 2 are legal. -/
theorem test_halt : (stepped (core [22299])).ip = -1 ∧ (stepped (core [22299])).status.word = 0x0101 := by decide

/-- 1.5: Scenario E. -/
theorem test_scenario_e :
    (stepped (core [99999])).ip = 1 ∧ (stepped (core [99999])).fr = ⟨0, 99999, 1, 4⟩ ∧
    (stepped (core [99999])).status.word = 0x0412 := by decide

/-- 2.7: the empty program. -/
theorem test_empty_program :
    (stepped State.reset).ip = 1 ∧ (stepped State.reset).fr = ⟨0, 0, 0, 3⟩ := by decide

/-- 2.7: the IP increment overflows before decode. -/
theorem test_ip_at_word_max :
    (stepped ((core []).setIp maxWord)).ip = maxWord ∧
    (stepped ((core []).setIp maxWord)).fr = ⟨maxWord, 0, 0, 1⟩ := by decide

/-- 2.4: OQ_CAPACITY = 1. -/
theorem test_output_capacity :
    (stepped ((coreWith (queueConfig 1) [104, 2]).setOq [1])).status.word = 0x0472 ∧
    (stepped ((coreWith (queueConfig 1) [104, 2]).setOq [1])).fr = ⟨0, 104, 1, 2⟩ := by decide

/-- 2.4: MEM_CAPACITY = 5, and the address stored to is absent. -/
theorem test_memory_capacity :
    (stepped (coreWith (smallConfig 5) [1101, 1, 1, 5, 99])).fr = ⟨0, 1101, 3, 1⟩ ∧
    (stepped (coreWith (smallConfig 5) [1101, 1, 1, 5, 99])).ip = 4 := by decide

/-- 2.8: `run_while_input` returns `NeedInput` at once, with STATUS 0x0200. -/
theorem test_need_input :
    (runTurns 1 .runWhileInput (accept .runWhileInput (core [3, 0, 99]))).map (fun p => (p.1, p.2.ip, p.2.status.word)) =
      some (.needInput, 0, 0x0200) := by decide

/-- 2.8: `run_until_output` on a halted core with OQ not empty takes the oldest entry. -/
theorem test_run_until_output :
    (runTurns 1 .runUntilOutput (accept .runUntilOutput (haltedCore.setOq [1, 2]))).map (fun p => (p.1, p.2.oq)) =
      some (.output 1, [2]) := by decide

/-- 1.6, property 2: a step of one clone leaves the other as it was. -/
theorem test_clone :
    ((Bench.apply [some (core [99])] (.clone 0)).2.at 1 = some (core [99])) ∧
    ((Bench.apply [some (core [99]), some (core [99])] (.host 0 (.pushInput 5))).2.at 1 = some (core [99])) := by decide

/-! ## Witnesses: for each statement with hypotheses, a case that meets them -/

/-- The invariant holds of a Running core with a program, of a halted one and of a faulted one. -/
theorem witness_inv_running : Inv (core [1, 5, 6, 7, 99, maxWord, 1]) := by constructor <;> decide
theorem witness_inv_halted : Inv haltedCore ∧ haltedCore.status.state = .halted :=
  ⟨by constructor <;> decide, by decide⟩
theorem witness_inv_faulted : Inv faultedCore ∧ faultedCore.status.faultCode = some .outOfBoundsError :=
  ⟨by constructor <;> decide, by decide⟩
theorem witness_inv_negative_key :
    Inv ((coreWith mapConfig [99]).setMem ((coreWith mapConfig [99]).mem.write (-1) minWord)) := by
  constructor <;> decide

theorem witness_DecodeOfEncodeIsTheLine :
    Line.WellFormed Config.standard ⟨.add .position .immediate .relative, [minWord, 0, maxWord]⟩ ∧
    Line.WellFormed Config.standard ⟨.halt .relative .relative .relative, []⟩ := by decide

theorem witness_UnknownOpcodeFaultsAtItsStep :
    (∀ w ∈ [100, 10, 98, 99998], (core [w]).Running ∧ (core [w]).cfg.IsWord ((core [w]).ip + 1) ∧
      0 ≤ (core [w]).mem.read (core [w]).ip ∧
      ((core [w]).mem.read (core [w]).ip % 100 = 0 ∨
        10 ≤ (core [w]).mem.read (core [w]).ip % 100 ∧ (core [w]).mem.read (core [w]).ip % 100 ≤ 98)) ∧
    (core []).Running ∧ (core []).cfg.IsWord ((core []).ip + 1) ∧ ¬(core []).mem.Present (core []).ip := by decide

theorem witness_MissingModeDigitsMeanPosition :
    decode .ignore 99 = .ok (.halt .position .position .position) ∧
    decode .fault 299 = .ok (.halt .relative .position .position) ∧
    decode .ignore 2299 = .ok (.halt .relative .relative .position) := by decide

theorem witness_ConstructIsRefusedInTwoCases :
    (∃ s, construct Config.standard [maxWord, minWord] = some s) ∧ (∃ s, construct (smallConfig 2) [1, 2] = some s) ∧
    construct (smallConfig 2) [1, 2, 3] = none ∧ construct Config.standard [maxWord + 1] = none :=
  ⟨⟨_, rfl⟩, ⟨_, rfl⟩, rfl, rfl⟩

theorem witness_ConstructLeavesTheResetState : construct Config.standard [0, 99] = some (core [0, 99]) := rfl

theorem witness_InvariantHoldsAtConstruction :
    (smallConfig 2).Valid ∧ (([0, 99] : List Int).length : Int) ≤ (smallConfig 2).wordMax + 1 ∧
    construct (smallConfig 2) [0, 99] = some (coreWith (smallConfig 2) [0, 99]) := ⟨by decide, by decide, rfl⟩

theorem witness_StepKeepsTheInvariant :
    Inv (core [1, 5, 6, 7, 99, maxWord, 1]) ∧
    step (core [1, 5, 6, 7, 99, maxWord, 1]) = .next (stepped (core [1, 5, 6, 7, 99, maxWord, 1])) :=
  ⟨by constructor <;> decide, rfl⟩

theorem witness_HostOperationsKeepTheInvariant : Inv ((core [3, 0, 99]).setIq [maxWord]) := by constructor <;> decide

/-- STATE stays Running, becomes Halted, becomes Faulted. -/
theorem witness_StateMovesOnlyAsStated :
    (Inv (core [109, 1]) ∧ step (core [109, 1]) = .next (stepped (core [109, 1])) ∧
      (stepped (core [109, 1])).status.state = .running) ∧
    (Inv (core [99]) ∧ step (core [99]) = .next (stepped (core [99])) ∧ (stepped (core [99])).status.state = .halted) ∧
    (Inv (core [98]) ∧ step (core [98]) = .next (stepped (core [98])) ∧
      (stepped (core [98])).status.state = .faulted) :=
  ⟨⟨by constructor <;> decide, rfl, by decide⟩, ⟨by constructor <;> decide, rfl, by decide⟩,
    ⟨by constructor <;> decide, rfl, by decide⟩⟩

theorem witness_FaultCodeIsSetOnceAndKept :
    (Inv (core [98]) ∧ turn .runToEnd (core [98]) = .next (none, cored (core [98])) ∧
      (core [98]).status.state = .running ∧ (cored (core [98])).status.state = .faulted) ∧
    (Inv faultedCore ∧ turn .step faultedCore = .next (some (.fault (some .outOfBoundsError)), stepped faultedCore) ∧
      faultedCore.status.faultCode = some .outOfBoundsError) ∧
    (Inv (core [99]) ∧ turn .step (core [99]) = .next (some .halted, stepped (core [99])) ∧
      (stepped (core [99])).status.state ≠ .faulted) :=
  ⟨⟨by constructor <;> decide, rfl, by decide, by decide⟩, ⟨by constructor <;> decide, rfl, by decide⟩,
    ⟨by constructor <;> decide, rfl, by decide⟩⟩

theorem witness_StepOfAStoppedCoreChangesNothing :
    (haltedCore.Idle ∧ haltedCore.status.state = .halted) ∧ faultedCore.Idle ∧ faultedCore.status.state = .faulted := by
  decide

/-- A write that inserts, one that overwrites with 0, and one that memory has no room for. -/
theorem witness_MemWriteMakesTheWord :
    (core [99]).mem.wf ∧ (∃ t, memWrite 7 5 3 (core [99]) = .ok () t) ∧ (∃ t, memWrite 0 0 1 (core [99]) = .ok () t) ∧
    (coreWith (smallConfig 1) [99]).mem.wf ∧ ∃ f t, memWrite 7 5 3 (coreWith (smallConfig 1) [99]) = .raise f t :=
  ⟨by decide, ⟨_, rfl⟩, ⟨_, rfl⟩, by decide, ⟨_, _, rfl⟩⟩

theorem witness_MemWriteFailsOnlyWhereMemoryIsFull :
    ((core [99]).mem.wf ∧ (core [99]).cfg.memCapacity = none) ∧
    (∀ cap ∈ [1, 2], (coreWith (smallConfig cap) [0]).mem.wf ∧ (coreWith (smallConfig cap) [0]).cfg.memCapacity = some cap) ∧
    (coreWith (smallConfig 1) [0]).mem.Present 0 ∧
    (¬(coreWith (smallConfig 1) [0]).mem.Present 1 ∧ 1 ≤ (coreWith (smallConfig 1) [0]).mem.count) ∧
    (coreWith (smallConfig 2) [0]).mem.count < 2 ∧ 1 < ([0, 0] : List Int).length := by decide

theorem witness_EqualContentsAreEqualMemories :
    ((core [5, 0]).mem.write 0 0).wf ∧ (core [0, 0]).mem.wf ∧
    (∀ a, ((core [5, 0]).mem.write 0 0).read a = (core [0, 0]).mem.read a) ∧
    ∀ a, ((core [5, 0]).mem.write 0 0).Present a ↔ (core [0, 0]).mem.Present a := by
  have h : (core [5, 0]).mem.write 0 0 = (core [0, 0]).mem := by decide
  rw [h]
  exact ⟨by decide, by decide, fun _ => rfl, fun _ => Iff.rfl⟩

/-- A position address, and a relative one at the edge, under both policies. -/
theorem witness_NegativeAddressFaultsOrIsAKey :
    (Mode.position = .position ∧ (-1 : Int) = -1 ∨ Mode.position = .relative) ∧ (-1 : Int) < 0 ∧
    (Mode.relative = .relative ∧ minWord = -1 + ((core []).setRb (minWord + 1)).rb ∧ (core []).cfg.IsWord minWord) ∧
    (core []).cfg.negAddrPolicy = .fault ∧ (coreWith mapConfig []).cfg.negAddrPolicy = .map ∧
    Inv (core []) ∧ (core []).Running ∧
    maxWord ≤ (core []).cfg.wordMax ∧ maxWord = 0 + ((core []).setRb maxWord).rb ∧
    0 ≤ -1 + ((core []).setRb 1).rb :=
  ⟨by decide, by decide, by decide, by decide, by decide, by constructor <;> decide, by decide, by decide, by decide,
    by decide⟩

theorem witness_RelativeLoadIsPositionLoadAtRb :
    ((core []).cfg.IsWord minWord ∧ (core []).cfg.IsWord (maxWord + minWord)) ∧
    (core [109, 5]).cfg.Valid ∧ (core [109, 5]).Running ∧
    exec (.adjustRelativeBase .immediate .position .position) (core [109, 5]) =
      .next (ran (.adjustRelativeBase .immediate .position .position) (core [109, 5])) ∧
    (ran (.adjustRelativeBase .immediate .position .position) (core [109, 5])).status.state ≠ .faulted ∧
    (core [109, 5]).cfg.IsWord (-5 + (ran (.adjustRelativeBase .immediate .position .position) (core [109, 5])).rb) :=
  ⟨by decide, by decide, by decide, rfl, by decide, by decide⟩

/-- An idle core, and one in a run command whose loop goes on. -/
theorem witness_StepRunsTheDecodedInstruction :
    (∃ r t, Returns .step (core [109, 5]) r t) ∧
    ((core [109, 5]).Running ∧ decode (core [109, 5]).cfg.highDigitPolicy ((core [109, 5]).mem.read (core [109, 5]).ip) =
      .ok (.adjustRelativeBase .immediate .position .position) ∧ (core [109, 5]).Idle ∧
      ∃ t, exec (.adjustRelativeBase .immediate .position .position) { core [109, 5] with
        status := { (core [109, 5]).status with busy := some .step } } = .next t) ∧
    (accept .runToEnd (core [99])).Running ∧
    decode (accept .runToEnd (core [99])).cfg.highDigitPolicy
      ((accept .runToEnd (core [99])).mem.read (accept .runToEnd (core [99])).ip) =
        .ok (.halt .position .position .position) ∧
    (accept .runToEnd (core [99])).status.busy = some .runToEnd ∧ Command.runToEnd ≠ .step ∧
    loopDecision .runToEnd (accept .runToEnd (core [99])) = none :=
  ⟨⟨_, _, by decide, 1, rfl⟩, ⟨by decide, by decide, by decide, ⟨_, rfl⟩⟩, by decide, by decide, by decide, by decide,
    by decide⟩

/-- One case for each cause, the last at the greatest IP that can be advanced. -/
theorem witness_DecodeErrorLeavesIpAdvanced :
    ((core [-1]).Running ∧ (core [-1]).cfg.IsWord ((core [-1]).ip + 1) ∧ decodeAtIp (core [-1]) = .error .negativeWord) ∧
    decodeAtIp (coreWith highConfig [100001]) = .error .highDigits ∧ (coreWith highConfig [100001]).Running ∧
    decodeAtIp (core [99999]) = .error (.badMode 1) ∧ decodeAtIp (core [3099]) = .error (.badMode 2) ∧
    decodeAtIp (core [30001]) = .error (.badMode 3) ∧
    ((core []).setIp (maxWord - 1)).Running ∧
    ((core []).setIp (maxWord - 1)).cfg.IsWord (((core []).setIp (maxWord - 1)).ip + 1) ∧
    decodeAtIp ((core []).setIp (maxWord - 1)) = .error .badOpcode := by decide

theorem witness_StepRaisesTheFirstFailingCheck :
    ((core [109, 5]).cfg.Valid ∧ (core [109, 5]).Running ∧ coreStep (core [109, 5]) = .next (cored (core [109, 5])) ∧
      firstFailure (core [109, 5]).stepChecks = none) ∧
    (core [11101, 1, 1, 0]).cfg.Valid ∧ (core [11101, 1, 1, 0]).Running ∧
    coreStep (core [11101, 1, 1, 0]) = .next (cored (core [11101, 1, 1, 0])) ∧
    firstFailure (core [11101, 1, 1, 0]).stepChecks = some ⟨.operandError, 3, 0⟩ :=
  ⟨⟨by decide, by decide, rfl, by decide⟩, by decide, by decide, rfl, by decide⟩

/-- A fault before the pop of IQ, and one after it. -/
theorem witness_FaultLeavesOnlyIncrementsAndThePop :
    ((core [98]).cfg.Valid ∧ (core [98]).Running ∧ coreStep (core [98]) = .next (cored (core [98])) ∧
      (cored (core [98])).status.state = .faulted ∧ (cored (core [98])).ip = 1) ∧
    ((core [103, 5]).setIq [9]).cfg.Valid ∧ ((core [103, 5]).setIq [9]).Running ∧
    coreStep ((core [103, 5]).setIq [9]) = .next (cored ((core [103, 5]).setIq [9])) ∧
    (cored ((core [103, 5]).setIq [9])).status.state = .faulted ∧ (cored ((core [103, 5]).setIq [9])).iq = [] :=
  ⟨⟨by decide, by decide, rfl, by decide, by decide⟩, by decide, by decide, rfl, by decide, by decide⟩

/-- A plain instruction, a jump of each kind taken and not taken, and `halt`. -/
theorem witness_CompletedStepMovesIpPastTheInstruction :
    ((core [109, 5]).cfg.Valid ∧ (core [109, 5]).Running ∧
      decodeAtIp (core [109, 5]) = .ok (.adjustRelativeBase .immediate .position .position) ∧
      coreStep (core [109, 5]) = .next (cored (core [109, 5])) ∧ (cored (core [109, 5])).status.state ≠ .faulted) ∧
    (decodeAtIp (core [1105, 1, 7]) = .ok (.jumpIfTrue .immediate .immediate .position) ∧
      coreStep (core [1105, 1, 7]) = .next (cored (core [1105, 1, 7])) ∧ (cored (core [1105, 1, 7])).ip = 7) ∧
    (decodeAtIp (core [1106, 0, 4]) = .ok (.jumpIfFalse .immediate .immediate .position) ∧
      coreStep (core [1106, 0, 4]) = .next (cored (core [1106, 0, 4])) ∧ (cored (core [1106, 0, 4])).ip = 4) ∧
    (coreStep (core [1105, 0, 7]) = .next (cored (core [1105, 0, 7])) ∧
      (core [1105, 0, 7]).operand .immediate 1 = 0 ∧ (cored (core [1105, 0, 7])).ip = 3) ∧
    (coreStep (core [1106, 1, 4]) = .next (cored (core [1106, 1, 4])) ∧
      (core [1106, 1, 4]).operand .immediate 1 ≠ 0 ∧ (cored (core [1106, 1, 4])).ip = 3) ∧
    decodeAtIp (core [99]) = .ok (.halt .position .position .position) ∧
    coreStep (core [99]) = .next (cored (core [99])) ∧ (cored (core [99])).ip = -1 :=
  ⟨⟨by decide, by decide, by decide, rfl, by decide⟩, ⟨by decide, rfl, by decide⟩, ⟨by decide, rfl, by decide⟩,
    ⟨rfl, by decide, by decide⟩, ⟨rfl, by decide, by decide⟩, by decide, rfl, by decide⟩

theorem witness_OnlyHaltMakesIpNegative :
    (Inv (core [99]) ∧ (core [99]).Running ∧ coreStep (core [99]) = .next (cored (core [99])) ∧
      (cored (core [99])).ip < 0) ∧
    (Inv (core [1105, 1, -1]) ∧ (core [1105, 1, -1]).Running ∧
      coreStep (core [1105, 1, -1]) = .next (cored (core [1105, 1, -1])) ∧
      (cored (core [1105, 1, -1])).status.faultCode = some .outOfBoundsError) ∧
    Inv (core [1106, 0, minWord]) ∧ (core [1106, 0, minWord]).Running ∧
    coreStep (core [1106, 0, minWord]) = .next (cored (core [1106, 0, minWord])) ∧
    (cored (core [1106, 0, minWord])).status.faultCode = some .outOfBoundsError ∧
    (∀ p ∈ [[1105, 1, -1], [1106, 0, minWord]], (core p).Fits 3 ∧ (core p).CanLoad .immediate 1 ∧
      (core p).CanLoad .immediate 2 ∧ (core p).operand .immediate 2 < 0) ∧
    decodeAtIp (core [1105, 1, -1]) = .ok (.jumpIfTrue .immediate .immediate .position) ∧
    (core [1105, 1, -1]).operand .immediate 1 ≠ 0 ∧
    decodeAtIp (core [1106, 0, minWord]) = .ok (.jumpIfFalse .immediate .immediate .position) ∧
    (core [1106, 0, minWord]).operand .immediate 1 = 0 :=
  ⟨⟨by constructor <;> decide, by decide, rfl, by decide⟩, ⟨by constructor <;> decide, by decide, rfl, by decide⟩,
    by constructor <;> decide, by decide, rfl, by decide, by decide, by decide, by decide, by decide, by decide⟩

theorem witness_IpNeverWraps :
    (((core []).setIp maxWord).Running ∧ ((core []).setIp maxWord).ip = ((core []).setIp maxWord).cfg.wordMax) ∧
    Inv ((core []).setIp maxWord) ∧
    Inv (core [99]) ∧ (core [99]).Running ∧ coreStep (core [99]) = .next (cored (core [99])) ∧
    (cored (core [99])).ip < 0 :=
  ⟨by decide, by constructor <;> decide, by constructor <;> decide, by decide, rfl, by decide⟩

/-! The completion statements, with an operand or a result at the edge of its range. -/

theorem witness_AddCompletes :
    (core [1, 5, 6, 7, 99, maxWord, minWord]).Running ∧ (core [1, 5, 6, 7, 99, maxWord, minWord]).Fits 4 ∧
    (core [1, 5, 6, 7, 99, maxWord, minWord]).CanLoad .position 1 ∧
    (core [1, 5, 6, 7, 99, maxWord, minWord]).CanLoad .position 2 ∧
    (core [1, 5, 6, 7, 99, maxWord, minWord]).cfg.IsWord
      ((core [1, 5, 6, 7, 99, maxWord, minWord]).operand .position 1
        + (core [1, 5, 6, 7, 99, maxWord, minWord]).operand .position 2) ∧
    (core [1, 5, 6, 7, 99, maxWord, minWord]).CanStore .position 3 := by decide

theorem witness_MultiplyCompletes :
    (core [2, 5, 6, 7, 99, -4294967296, 2147483648]).Running ∧ (core [2, 5, 6, 7, 99, -4294967296, 2147483648]).Fits 4 ∧
    (core [2, 5, 6, 7, 99, -4294967296, 2147483648]).CanLoad .position 1 ∧
    (core [2, 5, 6, 7, 99, -4294967296, 2147483648]).CanLoad .position 2 ∧
    (core [2, 5, 6, 7, 99, -4294967296, 2147483648]).cfg.IsWord
      ((core [2, 5, 6, 7, 99, -4294967296, 2147483648]).operand .position 1
        * (core [2, 5, 6, 7, 99, -4294967296, 2147483648]).operand .position 2) ∧
    (core [2, 5, 6, 7, 99, -4294967296, 2147483648]).CanStore .position 3 := by decide

/-- A relative destination with a negative RB, in a memory that is full but holds the address. -/
theorem witness_LessThanCompletes :
    ((coreWith (smallConfig 5) [21107, 5, 7, 8, 99]).setRb (-4)).cfg.Valid ∧
    ((coreWith (smallConfig 5) [21107, 5, 7, 8, 99]).setRb (-4)).Running ∧
    ((coreWith (smallConfig 5) [21107, 5, 7, 8, 99]).setRb (-4)).Fits 4 ∧
    ((coreWith (smallConfig 5) [21107, 5, 7, 8, 99]).setRb (-4)).CanLoad .immediate 1 ∧
    ((coreWith (smallConfig 5) [21107, 5, 7, 8, 99]).setRb (-4)).CanLoad .immediate 2 ∧
    ((coreWith (smallConfig 5) [21107, 5, 7, 8, 99]).setRb (-4)).CanStore .relative 3 := by decide

/-- A destination at a negative key, under `map`. -/
theorem witness_EqualsCompletes :
    (coreWith mapConfig [1108, 4, 4, -1]).cfg.Valid ∧ (coreWith mapConfig [1108, 4, 4, -1]).Running ∧
    (coreWith mapConfig [1108, 4, 4, -1]).Fits 4 ∧ (coreWith mapConfig [1108, 4, 4, -1]).CanLoad .immediate 1 ∧
    (coreWith mapConfig [1108, 4, 4, -1]).CanLoad .immediate 2 ∧
    (coreWith mapConfig [1108, 4, 4, -1]).CanStore .position 3 := by decide

theorem witness_ReadInputCompletes :
    ((core [3, 0]).setIq [minWord, 7]).Running ∧ ((core [3, 0]).setIq [minWord, 7]).Fits 2 ∧
    ((core [3, 0]).setIq [minWord, 7]).iq = minWord :: [7] ∧ ((core [3, 0]).setIq [minWord, 7]).CanStore .position 1 := by
  decide

/-- The last entry that OQ has room for. -/
theorem witness_WriteOutputCompletes :
    ((coreWith (queueConfig 2) [104, -7]).setOq [1]).Running ∧ ((coreWith (queueConfig 2) [104, -7]).setOq [1]).Fits 2 ∧
    ((coreWith (queueConfig 2) [104, -7]).setOq [1]).CanLoad .immediate 1 ∧
    ∀ cap, ((coreWith (queueConfig 2) [104, -7]).setOq [1]).cfg.oqCapacity = some cap →
      ((coreWith (queueConfig 2) [104, -7]).setOq [1]).oq.length < cap :=
  ⟨by decide, by decide, by decide, fun cap h => by cases h; decide⟩

/-- Taken to address 0, and not taken with a negative target. -/
theorem witness_JumpIfTrueCompletes :
    (∀ p ∈ [[1105, -1, 0], [1105, 0, -5]], (core p).cfg.Valid ∧ (core p).Running ∧ (core p).Fits 3 ∧
      (core p).CanLoad .immediate 1 ∧ (core p).CanLoad .immediate 2) ∧
    ((core [1105, -1, 0]).operand .immediate 1 ≠ 0 ∧ 0 ≤ (core [1105, -1, 0]).operand .immediate 2) ∧
    (core [1105, 0, -5]).operand .immediate 1 = 0 := by decide

theorem witness_JumpIfFalseCompletes :
    (∀ p ∈ [[1106, 0, maxWord], [1106, 1, -5]], (core p).cfg.Valid ∧ (core p).Running ∧ (core p).Fits 3 ∧
      (core p).CanLoad .immediate 1 ∧ (core p).CanLoad .immediate 2) ∧
    ((core [1106, 0, maxWord]).operand .immediate 1 = 0 ∧ 0 ≤ (core [1106, 0, maxWord]).operand .immediate 2) ∧
    (core [1106, 1, -5]).operand .immediate 1 ≠ 0 := by decide

theorem witness_AdjustRelativeBaseCompletes :
    ((core [109, -1]).setRb (minWord + 1)).Running ∧ ((core [109, -1]).setRb (minWord + 1)).Fits 2 ∧
    ((core [109, -1]).setRb (minWord + 1)).CanLoad .immediate 1 ∧
    ((core [109, -1]).setRb (minWord + 1)).cfg.IsWord
      (((core [109, -1]).setRb (minWord + 1)).rb + ((core [109, -1]).setRb (minWord + 1)).operand .immediate 1) := by decide

theorem witness_HaltCompletes :
    ((core []).setIp (maxWord - 1)).cfg.Valid ∧ ((core []).setIp (maxWord - 1)).Running ∧
    ((core []).setIp (maxWord - 1)).cfg.IsWord (((core []).setIp (maxWord - 1)).ip + 1) := by decide

/-! The traps. -/

theorem witness_ImmediateDestinationFaultsAtItsStore :
    ((core [11101, 1, 1, 0]).Running ∧ (core [11101, 1, 1, 0]).Fits 4 ∧ (core [11101, 1, 1, 0]).CanLoad .immediate 1 ∧
      (core [11101, 1, 1, 0]).CanLoad .immediate 2 ∧
      (core [11101, 1, 1, 0]).cfg.IsWord (Binary.add.result ((core [11101, 1, 1, 0]).operand .immediate 1)
        ((core [11101, 1, 1, 0]).operand .immediate 2))) ∧
    ((core [103, 5]).setIq [9]).Running ∧ ((core [103, 5]).setIq [9]).Fits 2 ∧
    ((core [103, 5]).setIq [9]).iq = 9 :: [] := by decide

theorem witness_ResultOutsideTheWordRangeFaults :
    ((core [1101, maxWord, 1, 0]).Running ∧ (core [1101, maxWord, 1, 0]).Fits 4 ∧
      (core [1101, maxWord, 1, 0]).CanLoad .immediate 1 ∧ (core [1101, maxWord, 1, 0]).CanLoad .immediate 2 ∧
      ¬(core [1101, maxWord, 1, 0]).cfg.IsWord (Binary.add.result ((core [1101, maxWord, 1, 0]).operand .immediate 1)
        ((core [1101, maxWord, 1, 0]).operand .immediate 2))) ∧
    ¬(core [1102, minWord, -1, 0]).cfg.IsWord (Binary.multiply.result ((core [1102, minWord, -1, 0]).operand .immediate 1)
      ((core [1102, minWord, -1, 0]).operand .immediate 2)) ∧
    ((core [109, 1]).setRb maxWord).Running ∧ ((core [109, 1]).setRb maxWord).Fits 2 ∧
    ((core [109, 1]).setRb maxWord).CanLoad .immediate 1 ∧
    ¬((core [109, 1]).setRb maxWord).cfg.IsWord
      (((core [109, 1]).setRb maxWord).rb + ((core [109, 1]).setRb maxWord).operand .immediate 1) := by decide

theorem witness_ReadInputStarvesOnAnEmptyQueue :
    ((core [3, 5, 99]).Running ∧ (core [3, 5, 99]).Fits 2 ∧ (core [3, 5, 99]).iq = []) ∧
    Inv (core [3, 5, 99]) ∧ coreStep (core [3, 5, 99]) = .next (cored (core [3, 5, 99])) ∧
    (cored (core [3, 5, 99])).status.faultCode = some .starvationError :=
  ⟨by decide, by constructor <;> decide, rfl, by decide⟩

/-- Targets 0 and -1 of both jumps. -/
theorem witness_TakenJumpGoesToItsTargetOrFaults :
    (∀ p ∈ [[1105, 1, 0], [1105, 1, -1], [1106, 0, 0], [1106, 0, -1]], (core p).cfg.Valid ∧ (core p).Running ∧
      (core p).Fits 3 ∧ (core p).CanLoad .immediate 1 ∧ (core p).CanLoad .immediate 2 ∧ 0 ≤ (core p).ip) ∧
    (core [1105, 1, 0]).operand .immediate 1 ≠ 0 ∧ 0 ≤ (core [1105, 1, 0]).operand .immediate 2 ∧
    (core [1105, 1, -1]).operand .immediate 1 ≠ 0 ∧ (core [1105, 1, -1]).operand .immediate 2 < 0 ∧
    (core [1106, 0, 0]).operand .immediate 1 = 0 ∧ 0 ≤ (core [1106, 0, 0]).operand .immediate 2 ∧
    (core [1106, 0, -1]).operand .immediate 1 = 0 ∧ (core [1106, 0, -1]).operand .immediate 2 < 0 := by decide

/-! The frames. -/

/-- A completed store, a destination that does not resolve, and one in immediate mode. -/
theorem witness_FrameOfTheFourArithmeticInstructions :
    (core [1101, 1, 2, 7]).cfg.Valid ∧
    (exec (Binary.add.instr .immediate .immediate .position) (core [1101, 1, 2, 7]) =
        .next (ran (.add .immediate .immediate .position) (core [1101, 1, 2, 7])) ∧
      (ran (.add .immediate .immediate .position) (core [1101, 1, 2, 7])).status.state ≠ .faulted ∧
      resolveAddr (core [1101, 1, 2, 7]).cfg (core [1101, 1, 2, 7]).rb ((core [1101, 1, 2, 7]).param 3) .position 3 =
        .ok 7) ∧
    (exec (Binary.equals.instr .immediate .immediate .position) (core [1108, 1, 2, -1]) =
        .next (ran (.equals .immediate .immediate .position) (core [1108, 1, 2, -1])) ∧
      resolveAddr (core [1108, 1, 2, -1]).cfg (core [1108, 1, 2, -1]).rb ((core [1108, 1, 2, -1]).param 3) .position 3 =
        .error ⟨.addressFault, 3, -1⟩) ∧
    exec (Binary.lessThan.instr .immediate .immediate .immediate) (core [11107, 1, 2, 7]) =
      .next (ran (.lessThan .immediate .immediate .immediate) (core [11107, 1, 2, 7])) ∧
    (ran (.lessThan .immediate .immediate .immediate) (core [11107, 1, 2, 7])).status.state = .faulted :=
  ⟨by decide, ⟨rfl, by decide, rfl⟩, ⟨rfl, rfl⟩, rfl, by decide⟩

theorem witness_FrameOfReadInput :
    ((core [3, 5]).setIq [9]).cfg.Valid ∧
    (exec (.readInput .position .position .position) ((core [3, 5]).setIq [9]) =
        .next (ran (.readInput .position .position .position) ((core [3, 5]).setIq [9])) ∧
      (ran (.readInput .position .position .position) ((core [3, 5]).setIq [9])).status.state ≠ .faulted ∧
      resolveAddr (core [3, 5]).cfg (core [3, 5]).rb ((core [3, 5]).param 1) .position 1 = .ok 5) ∧
    exec (.readInput .relative .position .position) ((core [203, -5]).setIq [9]) =
      .next (ran (.readInput .relative .position .position) ((core [203, -5]).setIq [9])) ∧
    resolveAddr (core [203, -5]).cfg (core [203, -5]).rb ((core [203, -5]).param 1) .relative 1 =
      .error ⟨.addressFault, 1, -5⟩ :=
  ⟨by decide, ⟨rfl, by decide, rfl⟩, rfl, rfl⟩

theorem witness_FrameOfTheInstructionsThatStoreNothing :
    (core [104, -7]).cfg.Valid ∧
    (exec (.writeOutput .immediate .position .position) (core [104, -7]) =
        .next (ran (.writeOutput .immediate .position .position) (core [104, -7])) ∧
      (ran (.writeOutput .immediate .position .position) (core [104, -7])).status.state ≠ .faulted) ∧
    (exec (.jumpIfTrue .immediate .immediate .position) (core [1105, 1, 7]) =
        .next (ran (.jumpIfTrue .immediate .immediate .position) (core [1105, 1, 7])) ∧
      (ran (.jumpIfTrue .immediate .immediate .position) (core [1105, 1, 7])).status.state ≠ .faulted) ∧
    exec (.halt .position .position .position) (core [99]) =
      .next (ran (.halt .position .position .position) (core [99])) ∧
    (ran (.halt .position .position .position) (core [99])).status.state ≠ .faulted :=
  ⟨by decide, ⟨rfl, by decide⟩, ⟨rfl, by decide⟩, rfl, by decide⟩

/-- Scenario B, and a `read_input` that reads a `halt`: the store is into the next instruction word. -/
theorem witness_NextFetchSeesTheStore :
    (Inv (core [1002, 4, 3, 4, 33]) ∧ (core [1002, 4, 3, 4, 33]).Running ∧
    exec (Binary.multiply.instr .position .immediate .position) (core [1002, 4, 3, 4, 33]) =
      .next (ran (.multiply .position .immediate .position) (core [1002, 4, 3, 4, 33])) ∧
    (ran (.multiply .position .immediate .position) (core [1002, 4, 3, 4, 33])).status.state ≠ .faulted ∧
    (core [1002, 4, 3, 4, 33]).operandAddr .position 3 = (core [1002, 4, 3, 4, 33]).ip + 4) ∧
    Inv ((core [3, 2]).setIq [99]) ∧ ((core [3, 2]).setIq [99]).Running ∧ ((core [3, 2]).setIq [99]).iq = 99 :: [] ∧
    exec (.readInput .position .position .position) ((core [3, 2]).setIq [99]) =
      .next (ran (.readInput .position .position .position) ((core [3, 2]).setIq [99])) ∧
    (ran (.readInput .position .position .position) ((core [3, 2]).setIq [99])).status.state ≠ .faulted ∧
    ((core [3, 2]).setIq [99]).operandAddr .position 1 = ((core [3, 2]).setIq [99]).ip + 2 :=
  ⟨⟨by constructor <;> decide, by decide, rfl, by decide, by decide⟩, by constructor <;> decide, by decide, by decide, rfl,
    by decide, by decide⟩

/-! The host interface. -/

/-- The three outcomes of `step()`. -/
theorem witness_StepCommandReturnsItsOutcome :
    (core [109, 5]).Idle ∧ (stepped (core [109, 5])).status.lastExit = .stepped ∧
    (core [99]).Idle ∧ (stepped (core [99])).status.lastExit = .halted ∧
    (core [98]).Idle ∧ (stepped (core [98])).status.lastExit = .fault := by decide

theorem witness_RunToEndReturnsHaltedOrFaulted :
    (∃ t, Returns .runToEnd (core [99]) .halted t) ∧
    (∃ t, Returns .runToEnd (core [98]) (.fault (some .decodeError)) t) ∧
    haltedCore.Idle ∧ haltedCore.status.state = .halted ∧ haltedCore.ip < 0 :=
  ⟨⟨_, by decide, 2, rfl⟩, ⟨_, by decide, 2, rfl⟩, by decide⟩

theorem witness_RunWhileInputNeverStarves :
    ((core [3, 0, 99]).cfg.Valid ∧ (core [3, 0, 99]).Running ∧
      ∃ t, Returns .runWhileInput (core [3, 0, 99]) .needInput t) ∧
    (core [3, 0, 99]).Idle ∧ 0 ≤ (core [3, 0, 99]).ip ∧ (core [3, 0, 99]).iq = [] ∧
    decodeAtIp (core [3, 0, 99]) = .ok (.readInput .position .position .position) :=
  ⟨⟨by decide, by decide, ⟨_, by decide, 1, rfl⟩⟩, by decide, by decide, by decide, by decide⟩

/-- An output that waits; an output produced; a halt with none; a fault. -/
theorem witness_RunUntilOutputTakesOneEntry :
    (((core [99]).setOq [1, 2]).Idle ∧ ((core [99]).setOq [1, 2]).status.state ≠ .faulted ∧
      ((core [99]).setOq [1, 2]).oq = 1 :: [2]) ∧
    ((core [104, 7]).cfg.Valid ∧ (core [104, 7]).oq = [] ∧ ∃ t, Returns .runUntilOutput (core [104, 7]) (.output 7) t) ∧
    (∃ t, Returns .runUntilOutput (core [99]) .noOutput t) ∧
    ∃ t, Returns .runUntilOutput (core [98]) (.fault (some .decodeError)) t :=
  ⟨by decide, ⟨by decide, by decide, ⟨_, by decide, 2, rfl⟩⟩, ⟨_, by decide, 2, rfl⟩, ⟨_, by decide, 2, rfl⟩⟩

/-- A core whose one instruction jumps to itself: every step of it leaves it as it is. -/
theorem afterSteps_loop (n : Nat) :
    (accept .runToEnd (core [1105, 1, 0])).afterSteps n = accept .runToEnd (core [1105, 1, 0]) := by
  induction n with
  | zero => rfl
  | succ n ih => exact ih

/-- Both sides of the law for `run_to_end`: the states of a run that never returns, and one that returns; `NeedInput` and an
output stop their commands. -/
theorem witness_CommandReturnsOnceOrHangs :
    ((core [1105, 1, 0]).Idle ∧ ∀ n,
      ((accept .runToEnd (core [1105, 1, 0])).afterSteps n).status.state ≠ .faulted ∧
      0 ≤ ((accept .runToEnd (core [1105, 1, 0])).afterSteps n).ip) ∧
    ((core [99]).Idle ∧ ((accept .runToEnd (core [99])).afterSteps 1).ip < 0 ∧
      ∃ t, Returns .runToEnd (core [99]) .halted t) ∧
    ((core [3, 0]).Idle ∧ ((accept .runWhileInput (core [3, 0])).afterSteps 0).iq = [] ∧
      ∃ t, Returns .runWhileInput (core [3, 0]) .needInput t) ∧
    (core [104, 7]).Idle ∧ ((accept .runUntilOutput (core [104, 7])).afterSteps 1).oq = [7] ∧
    ∃ t, Returns .runUntilOutput (core [104, 7]) (.output 7) t :=
  ⟨⟨by decide, fun n => by rw [afterSteps_loop]; decide⟩, ⟨by decide, by decide, ⟨_, by decide, 2, rfl⟩⟩,
    ⟨by decide, by decide, ⟨_, by decide, 1, rfl⟩⟩, by decide, by decide, ⟨_, by decide, 2, rfl⟩⟩

theorem witness_FaultedCoreReReportsItsFault : faultedCore.Idle ∧ faultedCore.status.state = .faulted := by decide

theorem witness_BusyCoreAcceptsOnlyReadStatus :
    ¬(accept .runToEnd (core [99])).Idle ∧ HostOp.popOutput ≠ .readStatus ∧
    Bench.at [some (accept .runToEnd (core [99]))] 0 = some (accept .runToEnd (core [99])) := by decide

/-- An operation that changes state, and one that is refused; an idle core, the edges of the addresses `read_mem` reads, a
negative address under both policies. -/
theorem witness_HostWritesOnlyWhatItMay :
    hostOp (.pushInput 5) (core [99]) = (.ok, (core [99]).setIq [5]) ∧
    hostOp (.forceRb (maxWord + 1)) (core [99]) = (.refused, core [99]) ∧
    (core [99]).Idle ∧ (∀ a ∈ [0, maxWord], (core [99]).cfg.IsWord a ∧ (0 : Int) ≤ a) ∧
    ((coreWith mapConfig [99]).Idle ∧ (coreWith mapConfig [99]).cfg.IsWord minWord ∧
      (coreWith mapConfig [99]).cfg.negAddrPolicy = .map) ∧
    (-1 : Int) < 0 ∧ (core [99]).cfg.negAddrPolicy = .fault := by decide

/-- IQ with room for one more entry, and IQ full; OQ empty, and OQ with two entries. -/
theorem witness_PushInputAppendsAndPopOutputTakesTheOldest :
    (((coreWith (queueConfig 2) []).setIq [1]).Idle ∧ ((coreWith (queueConfig 2) []).setIq [1]).cfg.IsWord maxWord ∧
      ∀ cap, ((coreWith (queueConfig 2) []).setIq [1]).cfg.iqCapacity = some cap →
        ((coreWith (queueConfig 2) []).setIq [1]).iq.length < cap) ∧
    (((coreWith (queueConfig 1) []).setIq [1]).Idle ∧
      ((coreWith (queueConfig 1) []).setIq [1]).cfg.iqCapacity = some 1 ∧
      1 ≤ ((coreWith (queueConfig 1) []).setIq [1]).iq.length) ∧
    (core []).oq = [] ∧ haltedCore.Idle ∧ (haltedCore.setOq [1, 2]).oq = 1 :: [2] :=
  ⟨⟨by decide, by decide, fun cap h => by cases h; decide⟩, by decide, by decide, by decide, by decide⟩

/-- A step that takes an input, and one that appends an output. -/
theorem witness_CoreTakesTheOldestInputAndAppendsOutputs :
    (core [3, 0]).cfg.Valid ∧
    coreStep ((core [3, 0]).setIq [7, 8]) = .next (cored ((core [3, 0]).setIq [7, 8])) ∧
    (cored ((core [3, 0]).setIq [7, 8])).iq = [8] ∧
    coreStep ((core [104, 9]).setOq [7, 8]) = .next (cored ((core [104, 9]).setOq [7, 8])) ∧
    (cored ((core [104, 9]).setOq [7, 8])).oq = [7, 8, 9] :=
  ⟨by decide, rfl, by decide, rfl, by decide⟩

theorem witness_InstancesShareNothing :
    Bench.at [some (core [99]), some (core [3, 0])] 1 = some (core [3, 0]) ∧
    (BenchEvent.advance 0).target ≠ some 1 ∧ (BenchEvent.clone 1).target ≠ some 1 ∧ (core [3, 0]).Idle := by decide

end Sys2Proof.Tests
end

section
/-!
SUPPORT. What an event on a bench can do, said once, and the instances it leaves as they were (spec/10_state.md R43).
-/

namespace Sys2Proof.Machine

theorem Bench.at_eq_some {b : Bench} {n : Nat} {s : State} : b.at n = some s ↔ b[n]? = some (some s) := by
  unfold Bench.at
  split <;> simp_all

theorem Bench.at_append {b : Bench} {n : Nat} {s : State} (h : b.at n = some s) (l : Bench) :
    Bench.at (b ++ l) n = some s := by
  rw [Bench.at_eq_some] at h ⊢
  obtain ⟨hn, -⟩ := List.getElem?_eq_some_iff.1 h
  rwa [List.getElem?_append_left hn]

theorem Bench.at_set_ne {b : Bench} {m n : Nat} (h : m ≠ n) (x : Option State) :
    Bench.at (b.set m x) n = b.at n := by
  simp only [Bench.at, List.getElem?_set_ne h]

/-- The next number of a bench is the number of no core yet. -/
@[simp] theorem Bench.at_length (b : Bench) : b.at b.length = none := by
  simp [Bench.at]

@[simp] theorem Bench.at_append_length (b : Bench) (s : State) : Bench.at (b ++ [some s]) b.length = some s := by
  simp [Bench.at_eq_some]

/-- R222: a clone of an idle core is made at the next number. -/
theorem Bench.clone_of_idle {b : Bench} {n : Nat} {s : State} (h : b.at n = some s) (hi : s.Idle) :
    b.clone n = (.newInstance b.length, b ++ [some s]) := by
  simp only [Bench.clone, h, if_pos hi]

/-- Everything an event can do to the instances: nothing, a new one beside them, or a change of its own target. -/
theorem Bench.apply_cases (b : Bench) (e : BenchEvent) :
    (b.apply e).2 = b ∨ (∃ s, (b.apply e).2 = b ++ [some s]) ∨
      ∃ n x, e.target = some n ∧ (b.apply e).2 = b.set n x := by
  cases e with
  | construct c program =>
    simp only [Bench.apply, Bench.construct]
    split
    · exact .inr (.inl ⟨_, rfl⟩)
    · exact .inl rfl
  | clone n =>
    simp only [Bench.apply, Bench.clone]
    split
    · split
      · exact .inr (.inl ⟨_, rfl⟩)
      · exact .inl rfl
    · exact .inl rfl
  | discard n =>
    simp only [Bench.apply, Bench.discard]
    split
    · split
      · exact .inr (.inr ⟨n, _, rfl, rfl⟩)
      · exact .inl rfl
    · exact .inl rfl
  | host n op =>
    simp only [Bench.apply, Bench.hostOp]
    split
    · exact .inr (.inr ⟨n, _, rfl, rfl⟩)
    · exact .inl rfl
  | advance n =>
    simp only [Bench.apply, Bench.advance]
    split
    · next s _ =>
      cases s.status.busy with
      | none => exact .inl rfl
      | some c =>
        obtain ⟨r, t, ht⟩ := turn_next c s
        cases r <;> simp only [ht] <;> exact .inr (.inr ⟨n, _, rfl, rfl⟩)
    · exact .inl rfl

/-- Settles O60, from what an event can do to the instances. -/
theorem instancesShareNothing : Obligations.InstancesShareNothing := by
  unfold Obligations.InstancesShareNothing
  refine ⟨fun b e n s h hne => ?_, fun b n s h hi => ?_⟩
  · obtain hb | ⟨u, hb⟩ | ⟨m, x, hm, hb⟩ := b.apply_cases e
    · rwa [hb]
    · rw [hb]
      exact Bench.at_append h _
    · have hmn : m ≠ n := fun hmn => hne (hmn ▸ hm)
      rwa [hb, Bench.at_set_ne hmn]
  · simp only [Bench.apply, Bench.clone_of_idle h hi, Bench.at_append_length, Bench.at_length, and_self]

end Sys2Proof.Machine
end

section
/-!
SUPPORT. IP over a step (spec/10_state.md R24): what a fetch at `WORD_MAX` does, and where a step can leave IP.
-/

namespace Sys2Proof.Machine

/-! ## A fetch at `WORD_MAX` -/

/-- R24: the increment of IP at `WORD_MAX` raises OverflowFault and writes nothing. -/
theorem fetchWord_at_wordMax {s : State} (k : Fin 4) (h : s.ip = s.cfg.wordMax) :
    fetchWord k s = .raise ⟨.overflowFault, k, 1⟩ s := by
  have hw : ¬s.cfg.IsWord (s.ip + 1) := fun hw => by
    have := hw.2
    omega
  simp only [fetchWord, chk_of_not_isWord hw]

/-- Whatever would follow the fetch of the instruction word, a step at `WORD_MAX` is the fault of that fetch. -/
theorem endOfStep_fetch_at_wordMax {s : State} (h : s.ip = s.cfg.wordMax) (body : Int → State → SubStep Unit) :
    endOfStep s.ip (s.mem.read s.ip) ((fetchWord 0 s).bind body) =
      s.faultedBy .overflowFault ⟨s.ip, s.mem.read s.ip, 0, 1⟩ := by
  rw [fetchWord_at_wordMax 0 h]
  rfl

theorem runBody_at_wordMax {s : State} (hr : s.Running) (h : s.ip = s.cfg.wordMax) (body : State → SubStep Unit) :
    runBody body s = .next (s.faultedBy .overflowFault ⟨s.ip, s.mem.read s.ip, 0, 1⟩) := by
  rw [runBody, if_pos hr, endOfStep_fetch_at_wordMax h]

theorem coreStep_at_wordMax {s : State} (hr : s.Running) (h : s.ip = s.cfg.wordMax) :
    coreStep s = .next (s.faultedBy .overflowFault ⟨s.ip, s.mem.read s.ip, 0, 1⟩) := by
  cases hd : decodeAtIp s with
  | ok i =>
    rw [coreStep_of_decode hr hd]
    cases i <;> exact runBody_at_wordMax hr h _
  | error e => simp only [coreStep, if_pos hr, hd, endOfStep_fetch_at_wordMax h]

/-! ## Where a step leaves IP -/

/-- R182: a taken jump whose check does not fail has no negative target. -/
theorem nonneg_of_jumpCheck {taken : Bool} {target : Int} (h : firstFailure [jumpCheck taken target] = none)
    (ht : taken = true) : 0 ≤ target := by
  rw [jumpCheck, firstFailure_cons_eq_none] at h
  simpa [ht] using h.1

/-- R24, R117: an instruction that completes moves IP forward or to a target that is not negative, but for `halt`. -/
theorem State.completed_ip_nonneg {s : State} {i : Instr} (h0 : 0 ≤ s.ip) (hc : firstFailure (s.bodyChecks i) = none)
    (hi : ∀ m1 m2 m3, i ≠ .halt m1 m2 m3) : 0 ≤ (s.completed i).ip := by
  have hadv (n : Nat) : 0 ≤ (s.advanced n).ip := by
    rw [State.advanced_ip]
    omega
  cases i with
  | add _ _ _ | multiply _ _ _ | lessThan _ _ _ | equals _ _ _ => exact hadv 4
  | readInput _ _ _ | writeOutput _ _ _ | adjustRelativeBase _ _ _ => exact hadv 2
  | jumpIfTrue _ _ _ | jumpIfFalse _ _ _ =>
    have hj := nonneg_of_jumpCheck (firstFailure_append_eq_none.1 hc).2
    simp only [State.completed]
    split
    · next ht => exact hj (decide_eq_true ht)
    · exact hadv 3
  | halt m1 m2 m3 => exact absurd rfl (hi m1 m2 m3)

theorem State.Within.le_ip {s u : State} {n : Nat} (h : s.Within n u) : s.ip ≤ u.ip := by
  obtain ⟨j, -, -, rfl⟩ := h
  rw [State.advanced_ip]
  omega

/-- R249: a fault never leaves IP below the instruction. -/
theorem State.Partial.le_ip {s u : State} {i : Instr} (h : s.Partial i u) : s.ip ≤ u.ip := by
  obtain h | ⟨-, -, rfl⟩ := h
  · exact h.le_ip
  · rw [State.setIq_ip, State.advanced_ip]
    omega

/-- The checks of a step whose word decodes. -/
theorem State.stepChecks_of_decode {s : State} {i : Instr} (hd : decodeAtIp s = .ok i) :
    s.stepChecks = s.incrementCheck 0 :: s.bodyChecks i := by
  simp only [State.stepChecks, hd]

/-- R24, R117: a step makes IP negative by `halt` alone. -/
theorem halt_of_coreStep_ip_neg {s t : State} (hv : s.cfg.Valid) (hr : s.Running) (h0 : 0 ≤ s.ip)
    (h : coreStep s = .next t) (ht : t.ip < 0) : ∃ m1 m2 m3, decodeAtIp s = .ok (.halt m1 m2 m3) := by
  obtain ⟨i, hd, hn, rfl⟩ | ⟨f, u, -, rfl, hu⟩ := coreStep_cases hr hv h
  · rw [State.stepChecks_of_decode hd] at hn
    by_contra hne
    have := State.completed_ip_nonneg h0 (State.isWord_of_increment hn).2
      fun m1 m2 m3 hi => hne ⟨m1, m2, m3, hi ▸ hd⟩
    omega
  · have hle : s.ip ≤ u.ip := hu.elim (·.le_ip) fun ⟨_, _, hp⟩ => hp.le_ip
    rw [faultEntry_ip] at ht
    omega

/-- Settles O31: the fetch, the step and the invariant, each by its own lemma. -/
theorem ipNeverWraps : Obligations.IpNeverWraps := by
  unfold Obligations.IpNeverWraps
  exact ⟨fun _ k h => fetchWord_at_wordMax k h, fun _ hr h => coreStep_at_wordMax hr h,
    fun _ _ hI hr h ht => halt_of_coreStep_ip_neg hI.cfgValid hr (hI.ip_nonneg hr) h ht,
    fun _ hI hr => ⟨hI.ip_nonneg hr, hI.ipWord.2⟩⟩

end Sys2Proof.Machine
end

section
/-!
SUPPORT. FAULT_CODE and FR (spec/10_state.md R30, R33): their bits in STATUS, and what a step, one pass of a command and a
host operation do to them.
-/

namespace Sys2Proof.Machine

/-! ## The register -/

/-- R28: STATUS has room for every field, so the sum of its fields is its value. -/
theorem Status.word_toNat (st : Status) :
    st.word.toNat = st.state.code + 2 ^ 4 * faultCodeNumber st.faultCode + 2 ^ 8 * st.lastExit.code
      + 2 ^ 11 * busyBit st.busy ∧
    st.state.code ≤ 2 ∧ faultCodeNumber st.faultCode ≤ 7 ∧ st.lastExit.code ≤ 5 ∧ busyBit st.busy ≤ 1 := by
  have h1 : st.state.code ≤ 2 := by cases st.state <;> decide
  have h2 : faultCodeNumber st.faultCode ≤ 7 := by
    cases st.faultCode with
    | none => decide
    | some k => cases k <;> decide
  have h3 : st.lastExit.code ≤ 5 := by cases st.lastExit <;> decide
  have h4 : busyBit st.busy ≤ 1 := by cases st.busy <;> simp [busyBit]
  refine ⟨?_, h1, h2, h3, h4⟩
  rw [Status.word, BitVec.toNat_ofNat, Nat.mod_eq_of_lt (by omega)]

/-- R28: bits 7:4 of STATUS are FAULT_CODE. -/
theorem Status.word_faultCode (st : Status) : st.word.toNat / 16 % 16 = faultCodeNumber st.faultCode := by
  obtain ⟨hw, h1, h2, h3, h4⟩ := st.word_toNat
  omega

/-! ## A step of the core -/

/-- STATUS after an instruction that completes. -/
theorem State.completed_status (s : State) (i : Instr) :
    (s.completed i).status = s.status ∨ (s.completed i).status = s.status.enterHalted := by
  cases i with
  | halt _ _ _ => exact .inr rfl
  | jumpIfTrue _ _ _ | jumpIfFalse _ _ _ =>
    simp only [State.completed]
    split <;> exact .inl rfl
  | _ => exact .inl rfl

theorem State.completed_fr (s : State) (i : Instr) : (s.completed i).fr = s.fr := by
  cases i with
  | jumpIfTrue _ _ _ | jumpIfFalse _ _ _ =>
    simp only [State.completed]
    split <;> rfl
  | _ => rfl

/-- No fault is recorded between `s` and `t`: STATE is Faulted in both or in neither, and FAULT_CODE and FR are the same. -/
def State.SameFault (s t : State) : Prop :=
  (t.status.state = .faulted ↔ s.status.state = .faulted) ∧ t.status.faultCode = s.status.faultCode ∧ t.fr = s.fr

theorem State.SameFault.refl (s : State) : s.SameFault s := ⟨Iff.rfl, rfl, rfl⟩

/-- The return of a command writes neither STATE nor FAULT_CODE nor FR. -/
theorem State.SameFault.finish {s t : State} (h : s.SameFault t) (r : Reply) : s.SameFault (finish r t) := by
  simpa [State.SameFault] using h

theorem State.sameFault_completed {s : State} (h : s.Running) (i : Instr) : s.SameFault (s.completed i) := by
  have hr : s.status.state = .running := h
  obtain hs | hs := s.completed_status i <;> simp [State.SameFault, hs, State.completed_fr, hr]

/-- R30, R33, R251: a step of the core records no fault, or that of its first failing check. -/
theorem coreStep_fault {s u : State} (hv : s.cfg.Valid) (h : coreStep s = .next u) :
    s.SameFault u ∨ s.Running ∧ ∃ f, firstFailure s.stepChecks = some f ∧ RecordsFault s u f := by
  by_cases hr : s.Running
  · obtain ⟨i, -, -, rfl⟩ | ⟨f, w, hf, rfl, -⟩ := coreStep_cases hr hv h
    · exact .inl (State.sameFault_completed hr i)
    · exact .inr ⟨hr, f, hf, rfl, rfl, rfl⟩
  · rw [coreStep_of_not_running hr] at h
    obtain rfl := Host.Outcome.next.inj h
    exact .inl (.refl s)

/-! ## One pass of a command -/

/-- R30, R33, R251: so does one pass of a command's loop. -/
theorem turn_fault {c : Command} {s t : State} {r : Option Reply} (hv : s.cfg.Valid) (h : turn c s = .next (r, t)) :
    s.SameFault t ∨ s.Running ∧ ∃ f, firstFailure s.stepChecks = some f ∧ RecordsFault s t f := by
  obtain ⟨q, -, -, rfl⟩ | ⟨u, -, hu, ht⟩ := turn_cases h
  · exact .inl (State.SameFault.finish (.refl s) q)
  · have hstep := coreStep_fault hv hu
    obtain ⟨-, -, rfl⟩ | ⟨-, -, rfl⟩ := ht
    · exact hstep.imp (·.finish _) fun ⟨hr, f, hf, hrec⟩ => ⟨hr, f, hf, by simpa [RecordsFault] using hrec⟩
    · exact hstep

/-! ## A host operation -/

/-- R210, R211: everything a host operation can do to a core: nothing, or on an idle core one of the four writes. -/
theorem hostOp_cases (op : HostOp) (s : State) :
    (hostOp op s).2 = s ∨
    (s.Idle ∧ ∃ v, op = .pushInput v ∧ s.cfg.IsWord v ∧ hasRoom s.cfg.iqCapacity s.iq.length = true ∧
      (hostOp op s).2 = s.setIq (s.iq ++ [v])) ∨
    (s.Idle ∧ ∃ v rest, op = .popOutput ∧ s.oq = v :: rest ∧ (hostOp op s).2 = s.setOq rest) ∨
    (s.Idle ∧ ∃ b, op = .forceRb b ∧ s.cfg.IsWord b ∧ (hostOp op s).2 = s.setRb b) ∨
    (s.Idle ∧ ∃ c, op = .issue c ∧ (hostOp op s).2 = accept c s) := by
  by_cases hi : s.Idle
  · rw [hostOp, if_pos hi]
    cases op with
    | pushInput v =>
      by_cases h : s.cfg.IsWord v ∧ hasRoom s.cfg.iqCapacity s.iq.length = true
      · exact .inr (.inl ⟨hi, v, rfl, h.1, h.2, by rw [idleOp, pushInput, if_pos h]⟩)
      · exact .inl (by rw [idleOp, pushInput, if_neg h])
    | popOutput =>
      cases hq : s.oq with
      | nil => exact .inl (by simp only [idleOp, popOutput, hq])
      | cons v rest => exact .inr (.inr (.inl ⟨hi, v, rest, rfl, rfl, by simp only [idleOp, popOutput, hq]⟩))
    | forceRb b =>
      by_cases h : s.cfg.IsWord b
      · exact .inr (.inr (.inr (.inl ⟨hi, b, rfl, h, by rw [idleOp, forceRb, if_pos h]⟩)))
      · exact .inl (by rw [idleOp, forceRb, if_neg h])
    | issue c => exact .inr (.inr (.inr (.inr ⟨hi, c, rfl, rfl⟩)))
    | peekQueues | isDone | readStatus | readMem _ | readRegs => exact .inl rfl
  · rw [hostOp, if_neg hi]
    exact .inl (by cases op <;> rfl)

/-- The host writes neither STATE nor FAULT_CODE nor FR. -/
theorem hostOp_sameFault (op : HostOp) (s : State) : s.SameFault (hostOp op s).2 := by
  obtain h | ⟨-, _, -, -, -, h⟩ | ⟨-, _, _, -, -, h⟩ | ⟨-, _, -, -, h⟩ | ⟨-, _, -, h⟩ := hostOp_cases op s <;>
    rw [h] <;> exact .refl s

/-! ## FAULT_CODE -/

/-- R30: FAULT_CODE is clear outside STATE Faulted. -/
theorem Inv.faultCode_eq_none {s : State} (h : Inv s) (hs : s.status.state ≠ .faulted) : s.status.faultCode = none :=
  not_not.1 fun hc => hs (h.faultCodeIff.2 hc)

/-- Settles O17, from what one pass and one host operation do to the recorded fault. -/
theorem faultCodeIsSetOnceAndKept : Obligations.FaultCodeIsSetOnceAndKept := by
  unfold Obligations.FaultCodeIsSetOnceAndKept
  intro c s t r hI h
  have hhost := fun op => (hostOp_sameFault op s).2
  obtain ⟨hstate, hcode, hfr⟩ | ⟨hrun, f, hfail, hfaulted, hcode, -⟩ := turn_fault hI.cfgValid h
  · refine ⟨fun hnf => ?_, fun hr hf => ?_, fun k hk => ⟨hcode.trans hk, hfr⟩, hhost⟩
    · rw [Status.word_faultCode, hcode, hI.faultCode_eq_none (mt hstate.2 hnf)]
      rfl
    · rw [hstate.1 hf] at hr
      cases hr
  · have hnone : s.status.faultCode = none := hI.faultCode_eq_none (by rw [hrun]; decide)
    have hbits : t.status.word.toNat / 16 % 16 = f.kind.code := by
      rw [Status.word_faultCode, hcode, faultCodeNumber]
    refine ⟨fun hnf => absurd hfaulted hnf, fun _ _ => ⟨f, hfail, hcode, ?_⟩, fun k hk => ?_, hhost⟩
    · and_intros <;> exact fun hk => hbits.trans (congrArg FaultKind.code hk)
    · rw [hnone] at hk
      cases hk

end Sys2Proof.Machine
end

section
/-!
SUPPORT. When a write to memory has room (spec/20_memory.md R60), and what `load` and `store` do at an effective address
(spec/20_memory.md R59, R61).
-/

namespace Sys2Proof.Machine

/-! ## The capacity of memory -/

/-- R8: there is room unless a capacity is reached. -/
theorem hasRoom_iff {capacity : Option Nat} {n : Nat} :
    hasRoom capacity n = true ↔ ∀ cap, capacity = some cap → n < cap := by
  cases capacity <;> simp [hasRoom]

/-- The present addresses as one list: it names no address twice, so its length is the count of R60. -/
theorem Memory.presentList_nodup {m : Memory} (h : m.wf) : (m.cells.map Prod.fst ++ m.zeros).Nodup := by
  obtain ⟨hc, -, hz, hd⟩ := h
  exact List.Nodup.append (hc.imp ne_of_lt) (hz.imp ne_of_lt) fun a hac haz => hd a haz hac

theorem memWrite_of_present {s : State} {a : Int} (v : Int) (k : Fin 4) (h : s.mem.Present a) :
    memWrite a v k s = .ok () (s.setMem (s.mem.write a v)) :=
  if_pos (.inl h)

theorem memWrite_of_room {s : State} (a v : Int) (k : Fin 4)
    (h : ∀ cap, s.cfg.memCapacity = some cap → s.mem.count < cap) :
    memWrite a v k s = .ok () (s.setMem (s.mem.write a v)) :=
  if_pos (.inr (hasRoom_iff.2 h))

/-- R60: an absent address cannot be written into a full memory. -/
theorem memWrite_of_full {s : State} {a : Int} {cap : Nat} (v : Int) (k : Fin 4) (hcap : s.cfg.memCapacity = some cap)
    (ha : ¬s.mem.Present a) (hfull : cap ≤ s.mem.count) : memWrite a v k s = .raise ⟨.capacityFault, k, 1⟩ s :=
  if_neg (not_or.2 ⟨ha, fun hroom => absurd (hasRoom_iff.1 hroom cap hcap) (not_lt.2 hfull)⟩)

/-- R60, R212: a program longer than memory is refused. -/
theorem construct_of_too_long {c : Config} {program : List Int} {cap : Nat} (hcap : c.memCapacity = some cap)
    (h : cap < program.length) : construct c program = none :=
  if_neg fun hacc => absurd (hacc.2 cap hcap) (not_le.2 h)

/-- Settles O20: the present addresses as a list, then each case of a write by its own lemma. -/
theorem memWriteFailsOnlyWhereMemoryIsFull : Obligations.MemWriteFailsOnlyWhereMemoryIsFull := by
  unfold Obligations.MemWriteFailsOnlyWhereMemoryIsFull
  refine ⟨rfl, fun s a v k hwf => ⟨⟨_, Memory.presentList_nodup hwf, ?_, fun b => List.mem_append⟩, ?_, ?_, ?_, ?_, ?_⟩⟩
  · simp only [List.length_append, List.length_map, Memory.count]
  · exact fun hnone => ⟨_, memWrite_of_room a v k (by simp [hnone])⟩
  · exact fun ha => ⟨_, memWrite_of_present v k ha⟩
  · exact fun _ hcap ha hfull => memWrite_of_full v k hcap ha hfull
  · exact fun _ hcap hlt => ⟨_, memWrite_of_room a v k (by simpa [hcap] using hlt)⟩
  · exact fun _ _ hcap hlong => construct_of_too_long hcap hlong

/-! ## Effective addresses -/

theorem wordMin_neg (c : Config) : c.wordMin < 0 :=
  neg_lt_zero.2 (by positivity)

/-- R61: the effective address of a parameter of position or relative mode. -/
theorem effectiveAddr_eq_ok {c : Config} {rb p a : Int} {m : Mode} (k : Fin 4)
    (h : m = .position ∧ a = p ∨ m = .relative ∧ a = p + rb ∧ c.IsWord a) : effectiveAddr c rb p m k = .ok a := by
  obtain ⟨rfl, rfl⟩ | ⟨rfl, rfl, hw⟩ := h
  · rfl
  · have hagen : alu c .agen p rb = some (p + rb) := chk_of_isWord hw
    simp only [effectiveAddr, hagen]

/-- R59: an effective address is refused only where it is negative and the policy is `fault`. -/
theorem resolveAddr_of_effectiveAddr {c : Config} {rb p a : Int} {m : Mode} {k : Fin 4}
    (h : effectiveAddr c rb p m k = .ok a) :
    resolveAddr c rb p m k =
      if a < 0 ∧ c.negAddrPolicy = .fault then .error ⟨.addressFault, k, a⟩ else .ok a := by
  rw [resolveAddr, h]

/-- R61: `load` and `store` raise the fault of resolving the address. -/
theorem load_store_of_resolveAddr_error {s : State} {p : Int} {m : Mode} {k : Fin 4} {f : FaultInfo} (v : Int)
    (hm : m ≠ .immediate) (h : resolveAddr s.cfg s.rb p m k = .error f) :
    load p m k s = .raise f s ∧ store p v m k s = .raise f s := by
  cases m with
  | immediate => exact absurd rfl hm
  | position | relative => simp only [load, store, h, and_self]

/-- R61: `load` reads and `store` writes the resolved address. -/
theorem load_store_of_resolveAddr_ok {s : State} {p a : Int} {m : Mode} {k : Fin 4} (v : Int)
    (hm : m ≠ .immediate) (h : resolveAddr s.cfg s.rb p m k = .ok a) :
    load p m k s = .ok (s.mem.read a) s ∧ store p v m k s = memWrite a v k s := by
  cases m with
  | immediate => exact absurd rfl hm
  | position | relative => simp only [load, store, h, and_self]

/-- R59: at an effective address that the policy refuses. -/
theorem load_store_at_refused {s : State} {p a : Int} {m : Mode} {k : Fin 4} (v : Int) (hm : m ≠ .immediate)
    (he : effectiveAddr s.cfg s.rb p m k = .ok a) (ha : a < 0) (hp : s.cfg.negAddrPolicy = .fault) :
    load p m k s = .raise ⟨.addressFault, k, a⟩ s ∧ store p v m k s = .raise ⟨.addressFault, k, a⟩ s :=
  load_store_of_resolveAddr_error v hm ((resolveAddr_of_effectiveAddr he).trans (if_pos ⟨ha, hp⟩))

/-- R59: at any other effective address. -/
theorem load_store_at_key {s : State} {p a : Int} {m : Mode} {k : Fin 4} (v : Int) (hm : m ≠ .immediate)
    (he : effectiveAddr s.cfg s.rb p m k = .ok a) (h : a < 0 → s.cfg.negAddrPolicy ≠ .fault) :
    load p m k s = .ok (s.mem.read a) s ∧ store p v m k s = memWrite a v k s :=
  load_store_of_resolveAddr_ok v hm ((resolveAddr_of_effectiveAddr he).trans (if_neg fun hf => h hf.1 hf.2))

theorem ne_immediate_of_addressed {m : Mode} {P Q : Prop} (h : m = .position ∧ P ∨ m = .relative ∧ Q) :
    m ≠ .immediate := by
  obtain ⟨rfl, -⟩ | ⟨rfl, -⟩ := h <;> decide

/-- Settles O22, from the effective address, what resolving it answers, and the invariant for IP. -/
theorem negativeAddressFaultsOrIsAKey : Obligations.NegativeAddressFaultsOrIsAKey := by
  unfold Obligations.NegativeAddressFaultsOrIsAKey
  refine ⟨fun s p v a m k h ha => ?_, fun s p v a m k h h0 hmax => ?_, fun s hI hr => hI.ip_nonneg hr⟩
  · have hm := ne_immediate_of_addressed h
    have he := effectiveAddr_eq_ok k h
    exact ⟨load_store_at_refused v hm he ha, fun hp => load_store_at_key v hm he fun _ hf => by simp [hp] at hf⟩
  · have hw : s.cfg.IsWord a := ⟨(wordMin_neg s.cfg).le.trans h0, hmax⟩
    have he := effectiveAddr_eq_ok k (h.imp_right fun ⟨hrel, ha⟩ => ⟨hrel, ha, hw⟩)
    exact load_store_at_key v (ne_immediate_of_addressed h) he fun hneg => absurd hneg (not_lt.2 h0)

end Sys2Proof.Machine
end

section
/-!
SUPPORT. The decoder, said once (spec/30_encoding.md R81 to R91): a word decodes to an instruction exactly where its
digits are the instruction's opcode and mode digits.
-/

namespace Sys2Proof

/-! ## The digits of a word -/

/-- R10: a digit above a word's leading digit is 0. -/
theorem digit_eq_zero {w k : Nat} (h : w < 10 ^ k) : digit w k = 0 := by
  rw [digit, Nat.div_eq_of_lt h]

/-- R84: the map from digits to modes and `digitOfMode` are inverse. -/
theorem modeOfDigit_eq_some {d : Nat} {m : Mode} : modeOfDigit d = some m ↔ d = digitOfMode m := by
  refine ⟨fun h => ?_, fun h => ?_⟩
  · unfold modeOfDigit at h
    split at h <;> cases h <;> rfl
  · cases m <;> rw [h] <;> rfl

/-- R84: position is the mode of digit 0. -/
theorem digitOfMode_eq_zero {m : Mode} : digitOfMode m = 0 ↔ m = .position := by
  cases m <;> decide

/-- R86: the constructor the opcode map gives for `n` keeps the opcode and the modes. -/
theorem opcodeOf_modesOf_of_instrOfOpcode {n : Nat} {mk : Mode → Mode → Mode → Instr}
    (h : instrOfOpcode n = some mk) (m1 m2 m3 : Mode) : opcodeOf (mk m1 m2 m3) = n ∧ modesOf (mk m1 m2 m3) = (m1, m2, m3) := by
  unfold instrOfOpcode at h
  split at h <;> cases h <;> exact ⟨rfl, rfl⟩

/-- R86: the opcode map finds every instruction under its opcode. -/
theorem exists_instrOfOpcode (i : Instr) :
    ∃ mk, instrOfOpcode (opcodeOf i) = some mk ∧ mk (modesOf i).1 (modesOf i).2.1 (modesOf i).2.2 = i := by
  cases i <;> exact ⟨_, rfl, rfl⟩

/-! ## The decoder -/

/-- R86: an opcode has two digits at most. -/
theorem opcodeOf_lt (i : Instr) : opcodeOf i < 100 := by
  cases i <;> simp only [opcodeOf, Nat.reduceLT]

/-- R91 after the checks of sign and high digits. -/
theorem decodeDigits_eq_ok {w : Nat} {i : Instr} :
    decodeDigits w = .ok i ↔ w % 100 = opcodeOf i ∧ digit w 2 = digitOfMode (modesOf i).1 ∧
      digit w 3 = digitOfMode (modesOf i).2.1 ∧ digit w 4 = digitOfMode (modesOf i).2.2 := by
  refine ⟨fun h => ?_, fun ⟨ho, h1, h2, h3⟩ => ?_⟩
  · unfold decodeDigits at h
    split at h
    · cases h
    next mk hmk =>
    split at h
    · cases h
    next m1 h1 =>
    split at h
    · cases h
    next m2 h2 =>
    split at h
    · cases h
    next m3 h3 =>
    obtain rfl := Except.ok.inj h
    obtain ⟨ho, hm⟩ := opcodeOf_modesOf_of_instrOfOpcode hmk m1 m2 m3
    rw [hm]
    exact ⟨ho.symm, modeOfDigit_eq_some.1 h1, modeOfDigit_eq_some.1 h2, modeOfDigit_eq_some.1 h3⟩
  · obtain ⟨mk, hmk, hi⟩ := exists_instrOfOpcode i
    simp only [decodeDigits, ho, hmk, modeOfDigit_eq_some.2 h1, modeOfDigit_eq_some.2 h2, modeOfDigit_eq_some.2 h3, hi]

/-- R91: the checks of sign and high digits, and then the digits. -/
theorem decode_eq_ok {policy : HighDigitPolicy} {w : Int} {i : Instr} :
    decode policy w = .ok i ↔ 0 ≤ w ∧ ¬(policy = .fault ∧ 100000 ≤ w) ∧ decodeDigits w.toNat = .ok i := by
  unfold decode
  split
  · next hneg => simp [not_le.2 hneg]
  · next h0 =>
    split
    · next hhigh => simp [hhigh]
    · next hlow => simp only [not_lt.1 h0, hlow, not_false_eq_true, true_and]

/-- R94, R96: the decoder reads an instruction's word as that instruction, under both policies. -/
theorem decode_encode (policy : HighDigitPolicy) (i : Instr) : decode policy (encode i) = .ok i := by
  have ho := opcodeOf_lt i
  have h1 := Laws.Window.digit_le (modesOf i).1
  have h2 := Laws.Window.digit_le (modesOf i).2.1
  have h3 := Laws.Window.digit_le (modesOf i).2.2
  obtain ⟨h0, hhigh, -⟩ := Laws.Window.of_parts ho
  refine decode_eq_ok.2 ⟨h0, fun h => absurd hhigh (not_lt.2 h.2), decodeDigits_eq_ok.2 ?_⟩
  simp only [encode, Int.ofNat_eq_natCast, Int.toNat_natCast, digit]
  omega

/-- R85: the mode digits a word that decodes does not have are 0, so their modes are position. -/
theorem modesOf_of_decode_lt {policy : HighDigitPolicy} {w : Int} {i : Instr} (h : decode policy w = .ok i) :
    (w < 100 → (modesOf i).1 = .position) ∧ (w < 1000 → (modesOf i).2.1 = .position) ∧
      (w < 10000 → (modesOf i).2.2 = .position) := by
  obtain ⟨h0, -, hd⟩ := decode_eq_ok.1 h
  obtain ⟨-, h1, h2, h3⟩ := decodeDigits_eq_ok.1 hd
  refine ⟨fun hw => ?_, fun hw => ?_, fun hw => ?_⟩ <;> apply digitOfMode_eq_zero.1
  · exact h1.symm.trans (digit_eq_zero (by omega))
  · exact h2.symm.trans (digit_eq_zero (by omega))
  · exact h3.symm.trans (digit_eq_zero (by omega))

/-- Settles O5, from the three absent digits one by one; the word 2 is the encoding of its `multiply`. -/
theorem missingModeDigitsMeanPosition : Obligations.MissingModeDigitsMeanPosition := by
  unfold Obligations.MissingModeDigitsMeanPosition
  intro policy w i h
  obtain ⟨h1, h2, h3⟩ := modesOf_of_decode_lt h
  refine ⟨fun hw => ?_, fun hw => ?_, h3, decode_encode policy (.multiply .position .position .position)⟩
  · exact Prod.ext (h1 hw) (Prod.ext (h2 (by omega)) (h3 (by omega)))
  · exact Prod.ext (h2 hw) (h3 (by omega))

end Sys2Proof
end

section
/-!
SUPPORT. How far a body runs where its Words can be read and its operands loaded (spec/40_execution.md R113, R114): each
sub-step's completion, and the sub-step a body has reached.
-/

namespace Sys2Proof.Machine

/-! ## Sub-steps that complete -/

@[simp] theorem SubStep.ok_bind {α β : Type} (a : α) (s : State) (f : α → State → SubStep β) :
    (SubStep.ok a s).bind f = f a s := rfl

theorem State.reached_of_fits {s : State} {n : Nat} (h : s.Fits n) {k : Nat} (hk : k ≤ n) : s.Reached k := by
  obtain ⟨hmin, hmax⟩ := h
  refine k.eq_zero_or_pos.imp id fun hpos => ?_
  constructor <;> omega

theorem fetchWord_of_fits {s : State} {n : Nat} (h : s.Fits n) (k : Fin 4) (hk : k.val + 1 ≤ n) :
    fetchWord k (s.advanced k.val) = .ok (s.param k.val) (s.advanced (k.val + 1)) :=
  (fetchWord_does s k).1 (State.increment_passes h k hk [])

theorem fetchSource_of_canLoad {s : State} {n : Nat} (h : s.Fits n) {m : Mode} (k : Fin 4) (hk : k.val + 1 ≤ n)
    (hl : s.CanLoad m k.val) :
    fetchSource m k (s.advanced k.val) = .ok (s.operand m k.val) (s.advanced (k.val + 1)) :=
  (fetchSource_does s m k (State.reached_of_fits h (by omega))).1 (State.source_passes h hk hl)

theorem aluResult_of_isWord {u : State} {f : AluOp} {a b : Int} (h : u.cfg.IsWord (aluExact f a b)) :
    aluResult f a b u = .ok (aluExact f a b) u :=
  (aluResult_does u u f a b rfl).1 (State.result_passes h [])

/-! ## Bodies -/

/-- R111, R118: where the instruction word can be read, a step ends as its body does. -/
theorem runBody_of_fits {s : State} {n : Nat} (hr : s.Running) (h : s.Fits n) (hn : 1 ≤ n)
    (body : State → SubStep Unit) :
    runBody body s = .next (endOfStep s.ip (s.mem.read s.ip) (body (s.advanced 1))) := by
  have h0 := fetchWord_of_fits h 0 hn
  rw [Fin.val_zero, State.advanced_zero] at h0
  rw [runBody, if_pos hr, h0]
  rfl

/-- R141 to R144: where both sources can be loaded, the body reaches its result and then its store, with IP past the
instruction. -/
theorem aluBody_reaches_result {s : State} {m1 m2 : Mode} (h : s.Fits 4) (h1 : s.CanLoad m1 1) (h2 : s.CanLoad m2 2)
    (f : AluOp) (m3 : Mode) :
    aluBody f m1 m2 m3 (s.advanced 1) =
      (aluResult f (s.operand m1 1) (s.operand m2 2) (s.advanced 4)).bind fun r t => store (s.param 3) r m3 3 t := by
  have e1 : fetchSource m1 1 (s.advanced 1) = .ok (s.operand m1 1) (s.advanced 2) :=
    fetchSource_of_canLoad h 1 (by decide) h1
  have e2 : fetchSource m2 2 (s.advanced 2) = .ok (s.operand m2 2) (s.advanced 3) :=
    fetchSource_of_canLoad h 2 (by decide) h2
  have e3 : fetchWord 3 (s.advanced 3) = .ok (s.param 3) (s.advanced 4) := fetchWord_of_fits h 3 (by decide)
  simp only [aluBody, e1, e2, e3, SubStep.ok_bind]

/-- R160: where IQ has a front entry, the body of `read_input` reaches its store, with that entry popped. -/
theorem readInputBody_reaches_store {s : State} {x : Int} {rest : List Int} (h : s.Fits 2) (hq : s.iq = x :: rest)
    (m1 : Mode) :
    readInputBody m1 (s.advanced 1) = store (s.param 1) x m1 1 ((s.advanced 2).setIq rest) := by
  have e1 : fetchWord 1 (s.advanced 1) = .ok (s.param 1) (s.advanced 2) := fetchWord_of_fits h 1 (by decide)
  simp only [readInputBody, e1, SubStep.ok_bind, popInput, State.advanced_iq, hq]

/-! ## A destination in immediate mode -/

/-- The alu function of a `Binary` (R141 to R144). -/
def Binary.aluOp : Binary → AluOp
  | .add => .add
  | .multiply => .mul
  | .lessThan => .lt
  | .equals => .eq

/-- R140: the alu's exact result is the `Binary`'s. -/
theorem Binary.aluExact_aluOp (b : Binary) (x y : Int) : aluExact b.aluOp x y = b.result x y := by
  cases b <;> rfl

/-- R141 to R144: the four instructions run one body. -/
theorem Binary.exec_instr (b : Binary) (m1 m2 m3 : Mode) (s : State) :
    exec (b.instr m1 m2 m3) s = runBody (aluBody b.aluOp m1 m2 m3) s := by
  cases b <;> rfl

theorem exec_readInput (m1 m2 m3 : Mode) (s : State) :
    exec (.readInput m1 m2 m3) s = runBody (readInputBody m1) s := rfl

/-- R89, R242, R248: a step that has reached the store of an immediate destination faults there. -/
theorem endOfStep_store_immediate (a w p v : Int) (k : Fin 4) (s : State) :
    endOfStep a w (store p v .immediate k s) = s.faultedBy .operandError ⟨a, w, k, p⟩ := rfl

theorem Binary.exec_immediate_destination {s : State} {m1 m2 : Mode} (b : Binary) (hr : s.Running) (h : s.Fits 4)
    (h1 : s.CanLoad m1 1) (h2 : s.CanLoad m2 2) (hw : s.cfg.IsWord (b.result (s.operand m1 1) (s.operand m2 2))) :
    exec (b.instr m1 m2 .immediate) s =
      .next ((s.advanced 4).faultedBy .operandError ⟨s.ip, s.mem.read s.ip, 3, s.param 3⟩) := by
  rw [← b.aluExact_aluOp] at hw
  rw [b.exec_instr, runBody_of_fits hr h (by decide), aluBody_reaches_result h h1 h2,
    aluResult_of_isWord (u := s.advanced 4) hw, SubStep.ok_bind, endOfStep_store_immediate]

theorem exec_readInput_immediate {s : State} {x : Int} {rest : List Int} (hr : s.Running) (h : s.Fits 2)
    (hq : s.iq = x :: rest) (m2 m3 : Mode) :
    exec (.readInput .immediate m2 m3) s =
      .next (((s.advanced 2).setIq rest).faultedBy .operandError ⟨s.ip, s.mem.read s.ip, 1, s.param 1⟩) := by
  rw [exec_readInput, runBody_of_fits hr h (by decide), readInputBody_reaches_store h hq, endOfStep_store_immediate]

/-- Settles O42: such an instruction decodes as every encoding does, and its body reaches the store that faults. -/
theorem immediateDestinationFaultsAtItsStore : Obligations.ImmediateDestinationFaultsAtItsStore := by
  unfold Obligations.ImmediateDestinationFaultsAtItsStore
  exact ⟨fun b policy m1 m2 => decode_encode policy (b.instr m1 m2 .immediate),
    fun policy m2 m3 => decode_encode policy (.readInput .immediate m2 m3),
    fun policy => decode_encode policy (.add .immediate .immediate .immediate),
    fun b _ _ _ hr h h1 h2 hw => b.exec_immediate_destination hr h h1 h2 hw,
    fun m2 m3 _ _ _ hr h hq => exec_readInput_immediate hr h hq m2 m3⟩

end Sys2Proof.Machine
end

section
/-!
SUPPORT. `step()` on a core that has stopped (spec/40_execution.md R120, 48_run_protocol.md R216).
-/

namespace Sys2Proof.Machine

/-- R216: `step()` returns what one step of the core leaves. -/
theorem returns_step_of_coreStep {s t : State} (hi : s.Idle) (h : coreStep (accept .step s) = .next t) :
    Returns .step s (stepReply t) (finish (stepReply t) t) := by
  refine ⟨hi, 1, ?_⟩
  simp only [runTurns_succ, turn, loopDecision, h, afterStep]

/-- R216: `step()` takes nothing from OQ. -/
theorem takeReply_stepReply (s t : State) : takeReply (stepReply s) t = t := by
  unfold stepReply
  split <;> rfl

/-- R32, R216: accepting a command on an idle core and returning from it writes LAST_EXIT alone. -/
theorem release_accept_of_idle {s : State} (hi : s.Idle) (c : Command) (e : LastExit) :
    (accept c s).setStatus ((accept c s).status.release e) = { s with status := { s.status with lastExit := e } } := by
  simp only [accept, State.setStatus, Status.accept, Status.release, hi]

/-- R120: a core that is not Running executes nothing, and `step()` on it reports its STATE and writes LAST_EXIT alone. -/
theorem step_of_not_running {s : State} {r : Reply} (h : ¬s.Running) (hr : stepReply s = r) :
    coreStep s = .next s ∧
      (s.Idle → Returns .step s r { s with status := { s.status with lastExit := exitOf r } }) := by
  refine ⟨coreStep_of_not_running h, fun hi => ?_⟩
  subst hr
  have hret := returns_step_of_coreStep hi (coreStep_of_not_running (s := accept .step s) h)
  rw [finish, takeReply_stepReply, release_accept_of_idle hi] at hret
  exact hret

/-- Settles O18: a Halted or Faulted core is not Running, and its STATE gives the reply. -/
theorem stepOfAStoppedCoreChangesNothing : Obligations.StepOfAStoppedCoreChangesNothing := by
  unfold Obligations.StepOfAStoppedCoreChangesNothing
  exact fun s => ⟨fun hs => step_of_not_running (by simp [hs]) (by rw [stepReply, hs]),
    fun hs => step_of_not_running (by simp [hs]) (by rw [stepReply, hs])⟩

end Sys2Proof.Machine
end

section
/-!
SUPPORT. A taken jump to a negative target (spec/43_control.md R182): the fault it raises and where it leaves IP, and that
no other step raises OutOfBoundsError (spec/40_execution.md R117).
-/

namespace Sys2Proof.Machine

/-- R180, R181: the word at IP is a jump with these mode digits, and it is taken. -/
def State.TakesJump (s : State) (m1 m2 m3 : Mode) : Prop :=
  decodeAtIp s = .ok (.jumpIfTrue m1 m2 m3) ∧ s.operand m1 1 ≠ 0 ∨
    decodeAtIp s = .ok (.jumpIfFalse m1 m2 m3) ∧ s.operand m1 1 = 0

/-! ## What the taken jump does -/

/-- R180, R181: where both sources can be loaded, the body of a jump reaches its decision, with IP past the instruction. -/
theorem jumpBody_reaches_decision {s : State} {m1 m2 : Mode} (hv : s.cfg.Valid) (h : s.Fits 3) (h1 : s.CanLoad m1 1)
    (h2 : s.CanLoad m2 2) (sense : Int) :
    jumpBody sense m1 m2 (s.advanced 1) =
      if aluExact .nz (s.operand m1 1) 0 = sense then jumpTo (s.operand m2 2) (s.advanced 3)
      else .ok () (s.advanced 3) := by
  have e1 : fetchSource m1 1 (s.advanced 1) = .ok (s.operand m1 1) (s.advanced 2) :=
    fetchSource_of_canLoad h 1 (by decide) h1
  have e2 : fetchSource m2 2 (s.advanced 2) = .ok (s.operand m2 2) (s.advanced 3) :=
    fetchSource_of_canLoad h 2 (by decide) h2
  have hbit : s.cfg.IsWord (aluExact .nz (s.operand m1 1) 0) := by
    refine Config.isWord_of_valid hv ?_ ?_ <;> simp only [aluExact] <;> split <;> decide
  simp only [jumpBody, e1, e2, SubStep.ok_bind, aluResult_of_isWord (u := s.advanced 3) hbit]

/-- R182, R243: a jump body that is taken to a negative target raises OutOfBoundsError with IP past the instruction. -/
theorem runBody_jumpBody_negative {s : State} {m1 m2 : Mode} {sense : Int} (hr : s.Running) (hv : s.cfg.Valid)
    (h : s.Fits 3) (h1 : s.CanLoad m1 1) (h2 : s.CanLoad m2 2) (ht : aluExact .nz (s.operand m1 1) 0 = sense)
    (hneg : s.operand m2 2 < 0) :
    runBody (jumpBody sense m1 m2) s =
      .next ((s.advanced 3).faultedBy .outOfBoundsError ⟨s.ip, s.mem.read s.ip, 2, s.operand m2 2⟩) := by
  rw [runBody_of_fits hr h (by decide), jumpBody_reaches_decision hv h h1 h2, if_pos ht, jumpTo, if_pos hneg]
  rfl

theorem exec_jumpIfTrue (m1 m2 m3 : Mode) (s : State) :
    exec (.jumpIfTrue m1 m2 m3) s = runBody (jumpBody 1 m1 m2) s := rfl

theorem exec_jumpIfFalse (m1 m2 m3 : Mode) (s : State) :
    exec (.jumpIfFalse m1 m2 m3) s = runBody (jumpBody 0 m1 m2) s := rfl

/-- R182: a taken jump to a negative target, of either kind. -/
theorem coreStep_takesJump_negative {s : State} {m1 m2 m3 : Mode} (hr : s.Running) (hv : s.cfg.Valid)
    (hj : s.TakesJump m1 m2 m3) (h : s.Fits 3) (h1 : s.CanLoad m1 1) (h2 : s.CanLoad m2 2) (hneg : s.operand m2 2 < 0) :
    coreStep s =
      .next ((s.advanced 3).faultedBy .outOfBoundsError ⟨s.ip, s.mem.read s.ip, 2, s.operand m2 2⟩) := by
  obtain ⟨hd, ht⟩ | ⟨hd, ht⟩ := hj
  · rw [coreStep_of_decode hr hd, exec_jumpIfTrue]
    exact runBody_jumpBody_negative hr hv h h1 h2 ((aluExact_nz_eq_one _ 0).2 ht) hneg
  · rw [coreStep_of_decode hr hd, exec_jumpIfFalse]
    exact runBody_jumpBody_negative hr hv h h1 h2 ((aluExact_nz_eq_zero _ 0).2 ht) hneg

/-! ## The checks that raise OutOfBoundsError -/

theorem firstFailure_append_eq_some {cs ds : List Check} {f : FaultInfo} :
    firstFailure (cs ++ ds) = some f ↔
      firstFailure cs = some f ∨ firstFailure cs = none ∧ firstFailure ds = some f := by
  rw [firstFailure_append, Option.or_eq_some_iff]

/-- R251: the fault raised is that of one of the checks. -/
theorem exists_check_of_firstFailure {cs : List Check} {f : FaultInfo} (h : firstFailure cs = some f) :
    ∃ c ∈ cs, c.2 = f := by
  induction cs with
  | nil => cases h
  | cons c cs ih =>
    obtain ⟨b, g⟩ := c
    rw [firstFailure_cons] at h
    split at h
    · exact ⟨_, List.mem_cons_self, Option.some.inj h⟩
    · obtain ⟨d, hd, hf⟩ := ih h
      exact ⟨d, List.mem_cons_of_mem _ hd, hf⟩

/-- None of the checks is that of a jump's target. -/
def NoBoundsCheck (cs : List Check) : Prop := ∀ c ∈ cs, c.2.kind ≠ .outOfBoundsError

theorem NoBoundsCheck.kind_ne {cs : List Check} {f : FaultInfo} (hcs : NoBoundsCheck cs)
    (h : firstFailure cs = some f) : f.kind ≠ .outOfBoundsError := by
  obtain ⟨c, hc, rfl⟩ := exists_check_of_firstFailure h
  exact hcs c hc

@[simp] theorem noBoundsCheck_nil : NoBoundsCheck [] := List.forall_mem_nil _

@[simp] theorem noBoundsCheck_cons {c : Check} {cs : List Check} :
    NoBoundsCheck (c :: cs) ↔ c.2.kind ≠ .outOfBoundsError ∧ NoBoundsCheck cs :=
  List.forall_mem_cons

@[simp] theorem noBoundsCheck_append {cs ds : List Check} :
    NoBoundsCheck (cs ++ ds) ↔ NoBoundsCheck cs ∧ NoBoundsCheck ds :=
  List.forall_mem_append

@[simp] theorem State.incrementCheck_kind (s : State) (k : Fin 4) : (s.incrementCheck k).2.kind = .overflowFault := rfl

@[simp] theorem State.resultCheck_kind (s : State) (v : Int) : (s.resultCheck v).2.kind = .overflowFault := rfl

@[simp] theorem decodeFault_kind (e : DecodeErr) : (decodeFault e).kind = .decodeError := by
  cases e <;> rfl

@[simp] theorem State.noBoundsCheck_address (s : State) (m : Mode) (k : Fin 4) :
    NoBoundsCheck (s.addressChecks m k) := by
  simp [State.addressChecks]

@[simp] theorem State.noBoundsCheck_source (s : State) (m : Mode) (k : Fin 4) : NoBoundsCheck (s.sourceChecks m k) := by
  rw [State.sourceChecks]
  split <;> simp

@[simp] theorem State.noBoundsCheck_store (s : State) (m : Mode) (k : Fin 4) : NoBoundsCheck (s.storeChecks m k) := by
  rw [State.storeChecks]
  split <;> simp

/-- R182: a failing target check is that of a taken jump to a negative target. -/
theorem of_jumpCheck {taken : Bool} {target : Int} {f : FaultInfo}
    (h : firstFailure [jumpCheck taken target] = some f) :
    taken = true ∧ target < 0 := by
  rw [jumpCheck, firstFailure_cons] at h
  split at h
  · next hc => simpa using hc
  · cases h

/-- R113, R62 to R64: a source whose checks do not fail can be read and loaded. -/
theorem State.of_source {s : State} {m : Mode} {k : Fin 4} (h : firstFailure (s.sourceChecks m k) = none) :
    s.cfg.IsWord (s.ip + (k.val + 1 : Nat)) ∧ s.CanLoad m k.val := by
  obtain ⟨hw, hl⟩ := State.isWord_of_increment h
  refine ⟨hw, or_iff_not_imp_left.2 fun hm => ?_⟩
  rw [if_neg hm] at hl
  exact State.of_address hl

/-- R251: where the checks of a jump raise OutOfBoundsError, its Words and sources are accessible, and it is taken to a
negative target. -/
theorem State.of_jump_outOfBounds {s : State} {m1 m2 : Mode} {taken : Bool} {f : FaultInfo}
    (h : firstFailure (s.incrementCheck 0 :: (s.sourceChecks m1 1 ++ s.sourceChecks m2 2
      ++ [jumpCheck taken (s.operand m2 2)])) = some f) (hk : f.kind = .outOfBoundsError) :
    (s.Fits 3 ∧ s.CanLoad m1 1 ∧ s.CanLoad m2 2) ∧ taken = true ∧ s.operand m2 2 < 0 := by
  rw [← List.cons_append, firstFailure_append_eq_some] at h
  obtain h | ⟨hsources, htarget⟩ := h
  · exact absurd hk (NoBoundsCheck.kind_ne (by simp) h)
  · obtain ⟨⟨hmin, -⟩, hsources⟩ := State.isWord_of_increment hsources
    obtain ⟨hs1, hs2⟩ := firstFailure_append_eq_none.1 hsources
    obtain ⟨-, hl1⟩ := State.of_source hs1
    obtain ⟨⟨-, hmax⟩, hl2⟩ := State.of_source hs2
    exact ⟨⟨⟨hmin, hmax⟩, hl1, hl2⟩, of_jumpCheck htarget⟩

/-- R117, R251: the fault of a step is OutOfBoundsError only where the step is a jump taken to a negative target, with its
Words and sources accessible. -/
theorem State.takesJump_of_outOfBounds {s : State} {f : FaultInfo} (h : firstFailure s.stepChecks = some f)
    (hk : f.kind = .outOfBoundsError) :
    ∃ m1 m2 m3, s.TakesJump m1 m2 m3 ∧ (s.Fits 3 ∧ s.CanLoad m1 1 ∧ s.CanLoad m2 2) ∧ s.operand m2 2 < 0 := by
  cases hd : decodeAtIp s with
  | error e =>
    simp only [State.stepChecks, hd] at h
    exact absurd hk (NoBoundsCheck.kind_ne (by simp) h)
  | ok i =>
    rw [State.stepChecks_of_decode hd] at h
    cases i with
    | jumpIfTrue m1 m2 m3 =>
      obtain ⟨hacc, ht, hneg⟩ := State.of_jump_outOfBounds h hk
      exact ⟨m1, m2, m3, .inl ⟨hd, of_decide_eq_true ht⟩, hacc, hneg⟩
    | jumpIfFalse m1 m2 m3 =>
      obtain ⟨hacc, ht, hneg⟩ := State.of_jump_outOfBounds h hk
      exact ⟨m1, m2, m3, .inr ⟨hd, of_decide_eq_true ht⟩, hacc, hneg⟩
    | add _ _ _ | multiply _ _ _ | lessThan _ _ _ | equals _ _ _ | readInput _ _ _ | writeOutput _ _ _
    | adjustRelativeBase _ _ _ | halt _ _ _ =>
      exact absurd hk (NoBoundsCheck.kind_ne (by simp [State.bodyChecks]) h)

/-- R117: a step from a state that meets the invariant raises OutOfBoundsError only by such a jump. -/
theorem Inv.takesJump_of_coreStep_outOfBounds {s t : State} (hI : Inv s) (hr : s.Running) (h : coreStep s = .next t)
    (hc : t.status.faultCode = some .outOfBoundsError) :
    ∃ m1 m2 m3, s.TakesJump m1 m2 m3 ∧ (s.Fits 3 ∧ s.CanLoad m1 1 ∧ s.CanLoad m2 2) ∧ s.operand m2 2 < 0 := by
  obtain ⟨-, hcode, -⟩ | ⟨-, f, hf, -, hcode, -⟩ := coreStep_fault hI.cfgValid h
  · rw [hcode, hI.faultCode_eq_none (by rw [hr]; decide)] at hc
    cases hc
  · exact State.takesJump_of_outOfBounds hf (Option.some.inj (hcode.symm.trans hc))

/-- Settles O30: only `halt` leaves IP negative, and OutOfBoundsError and the jump taken to a negative target are one
thing. -/
theorem onlyHaltMakesIpNegative : Obligations.OnlyHaltMakesIpNegative := by
  unfold Obligations.OnlyHaltMakesIpNegative
  refine fun s t hI hr h => ⟨fun ht => halt_of_coreStep_ip_neg hI.cfgValid hr (hI.ip_nonneg hr) h ht, fun hc => ?_,
    fun m1 m2 m3 hfit h1 h2 hneg hj => ?_⟩
  · obtain ⟨m1, m2, m3, hj, ⟨hfit, h1, h2⟩, hneg⟩ := hI.takesJump_of_coreStep_outOfBounds hr h hc
    rw [coreStep_takesJump_negative hr hI.cfgValid hj hfit h1 h2 hneg] at h
    obtain rfl := Host.Outcome.next.inj h
    refine ⟨rfl, rfl, hneg, hj.imp ?_ ?_⟩ <;> exact fun ⟨hd, ht⟩ => ⟨m1, m2, m3, hd, ht, rfl⟩
  · rw [coreStep_takesJump_negative hr hI.cfgValid hj hfit h1 h2 hneg] at h
    obtain rfl := Host.Outcome.next.inj h
    exact ⟨rfl, rfl⟩

end Sys2Proof.Machine
end

section
/-!
SUPPORT. What `construct` refuses and what it leaves (spec/48_run_protocol.md R212).
-/

namespace Sys2Proof.Machine

theorem construct_eq_none {c : Config} {program : List Int} : construct c program = none ↔ ¬c.Accepts program := by
  simp [construct]

theorem construct_eq_some {c : Config} {program : List Int} {s : State} :
    construct c program = some s ↔ c.Accepts program ∧ s = (State.initial c).setMem (Memory.load ⟨[], []⟩ 0 program) := by
  simp [construct, State.initial, eq_comm]

/-- R212: the two cases of a refusal. -/
theorem Config.not_accepts_iff {c : Config} {program : List Int} :
    ¬c.Accepts program ↔
      (∃ v ∈ program, ¬c.IsWord v) ∨ ∃ cap, c.memCapacity = some cap ∧ cap < program.length := by
  simp only [Config.Accepts, not_and_or, not_forall, not_le, exists_prop, Option.mem_def]

theorem Memory.not_present_empty (a : Int) : ¬Memory.Present ⟨[], []⟩ a := by
  simp [Memory.Present]

/-- R212: a program loaded at address 0 of an empty memory is all that is present. -/
theorem Memory.present_load_empty (program : List Int) (a : Int) :
    (Memory.load ⟨[], []⟩ 0 program).Present a ↔ 0 ≤ a ∧ a < program.length := by
  obtain ⟨hpresent, -⟩ :=
    Memory.load_fresh program (m := ⟨[], []⟩) 0 State.reset_mem_wf fun b hb => absurd hb (Memory.not_present_empty b)
  rw [hpresent, zero_add]
  exact or_iff_right (Memory.not_present_empty a)

theorem Memory.read_load_empty {program : List Int} {n : Nat} (h : n < program.length) :
    (Memory.load ⟨[], []⟩ 0 program).read n = program[n] := by
  obtain ⟨-, -, hread, -⟩ :=
    Memory.load_fresh program (m := ⟨[], []⟩) 0 State.reset_mem_wf fun b hb => absurd hb (Memory.not_present_empty b)
  rw [← hread n h, zero_add]

/-- Settles O8: what a program that is not accepted fails at, and what loading an accepted one leaves in memory. -/
theorem constructIsRefusedInTwoCases : Obligations.ConstructIsRefusedInTwoCases := by
  unfold Obligations.ConstructIsRefusedInTwoCases
  refine fun c program => ⟨construct_eq_none.trans Config.not_accepts_iff, fun s hs => ?_⟩
  obtain ⟨-, rfl⟩ := construct_eq_some.1 hs
  refine ⟨rfl, fun n hn => ⟨(Memory.present_load_empty program n).2 ?_, Memory.read_load_empty hn⟩, fun a ha => ?_⟩
  · omega
  · have habsent : ¬(Memory.load ⟨[], []⟩ 0 program).Present a := by
      rw [Memory.present_load_empty]
      omega
    exact ⟨habsent, Memory.read_of_not_present habsent⟩

end Sys2Proof.Machine
end

section
/-!
SUPPORT. What `step()` returns and what its return writes (spec/48_run_protocol.md R216).
-/

namespace Sys2Proof.Machine

/-- R216: the return of `step()` writes LAST_EXIT and BUSY alone. -/
theorem finish_stepReply (u : State) :
    finish (stepReply u) u = u.setStatus (u.status.release (exitOf (stepReply u))) := by
  rw [finish, takeReply_stepReply]

/-- R31, R216: the reply of `step()` and the number of its LAST_EXIT, by the STATE its step left. -/
theorem stepReply_cases (u : State) :
    u.status.state = .running ∧ stepReply u = .running ∧ (exitOf (stepReply u)).code = 5 ∨
    u.status.state = .halted ∧ stepReply u = .halted ∧ (exitOf (stepReply u)).code = 1 ∨
    u.status.state = .faulted ∧ stepReply u = .fault u.status.faultCode ∧ (exitOf (stepReply u)).code = 4 := by
  unfold stepReply
  cases u.status.state with
  | running => exact .inl ⟨rfl, rfl, rfl⟩
  | halted => exact .inr (.inl ⟨rfl, rfl, rfl⟩)
  | faulted => exact .inr (.inr ⟨rfl, rfl, rfl⟩)

/-- Settles O50: the core's step from the accepted command, its return, and the reply by STATE. -/
theorem stepCommandReturnsItsOutcome : Obligations.StepCommandReturnsItsOutcome := by
  unfold Obligations.StepCommandReturnsItsOutcome
  intro s hi
  obtain ⟨u, hu⟩ := coreStep_next (accept .step s)
  have hret := returns_step_of_coreStep hi hu
  rw [finish_stepReply] at hret
  exact ⟨u, _, _, hu, hret, rfl, stepReply_cases u⟩

end Sys2Proof.Machine
end

section
/-!
SUPPORT. Which host operations a core accepts, and what the two that move a queue do on an idle core
(spec/48_run_protocol.md R211, R213, R214).
-/

namespace Sys2Proof.Machine

/-! ## A busy core -/

theorem hostOp_of_busy {s : State} (h : ¬s.Idle) (op : HostOp) : hostOp op s = busyOp op s :=
  if_neg h

/-- R211: a busy core refuses every operation but `read_status`. -/
theorem busyOp_of_ne_readStatus {op : HostOp} (h : op ≠ .readStatus) (s : State) : busyOp op s = (.refused, s) := by
  cases op with
  | readStatus => exact absurd rfl h
  | pushInput _ | popOutput | peekQueues | isDone | issue _ | readMem _ | readRegs | forceRb _ => rfl

theorem Bench.clone_of_busy {b : Bench} {n : Nat} {s : State} (h : b.at n = some s) (hb : ¬s.Idle) :
    b.clone n = (.refused, b) := by
  simp only [Bench.clone, h, if_neg hb]

theorem Bench.discard_of_busy {b : Bench} {n : Nat} {s : State} (h : b.at n = some s) (hb : ¬s.Idle) :
    b.discard n = (.refused, b) := by
  simp only [Bench.discard, h, if_neg hb]

/-- Settles O56: the operations on the core, then the two on the bench. -/
theorem busyCoreAcceptsOnlyReadStatus : Obligations.BusyCoreAcceptsOnlyReadStatus := by
  unfold Obligations.BusyCoreAcceptsOnlyReadStatus
  refine fun op s hb => ⟨fun hop => ?_, hostOp_of_busy hb .readStatus,
    fun b n hn => ⟨Bench.clone_of_busy hn hb, Bench.discard_of_busy hn hb⟩⟩
  rw [hostOp_of_busy hb, busyOp_of_ne_readStatus hop]

/-! ## The queues of an idle core -/

theorem hostOp_of_idle {s : State} (h : s.Idle) (op : HostOp) : hostOp op s = idleOp op s :=
  if_pos h

/-- R213: a Word is appended where IQ has room. -/
theorem pushInput_of_room {s : State} {v : Int} (hv : s.cfg.IsWord v)
    (h : ∀ cap, s.cfg.iqCapacity = some cap → s.iq.length < cap) : pushInput v s = (.ok, s.setIq (s.iq ++ [v])) :=
  if_pos ⟨hv, hasRoom_iff.2 h⟩

/-- R213: a full IQ refuses the entry. -/
theorem pushInput_of_full {s : State} {cap : Nat} (v : Int) (hcap : s.cfg.iqCapacity = some cap)
    (h : cap ≤ s.iq.length) : pushInput v s = (.refused, s) :=
  if_neg fun hacc => absurd (hasRoom_iff.1 hacc.2 cap hcap) (not_lt.2 h)

theorem popOutput_nil {s : State} (h : s.oq = []) : popOutput s = (.popped none, s) := by
  simp only [popOutput, h]

theorem popOutput_cons {s : State} {v : Int} {rest : List Int} (h : s.oq = v :: rest) :
    popOutput s = (.popped (some v), s.setOq rest) := by
  simp only [popOutput, h]

/-- Settles O58: both operations on an idle core ask nothing of its STATE; each case of a queue by its own lemma. -/
theorem pushInputAppendsAndPopOutputTakesTheOldest : Obligations.PushInputAppendsAndPopOutputTakesTheOldest := by
  unfold Obligations.PushInputAppendsAndPopOutputTakesTheOldest
  intro s hi
  refine ⟨fun v hv hroom => ?_, fun v cap hcap hfull => ?_, fun hq => ?_, fun v rest hq => ?_⟩ <;>
    rw [hostOp_of_idle hi]
  · exact pushInput_of_room hv hroom
  · exact pushInput_of_full v hcap hfull
  · exact popOutput_nil hq
  · exact popOutput_cons hq

end Sys2Proof.Machine
end

section
/-!
SUPPORT. `read_input` on an empty IQ (spec/42_io.md R160): the fault it raises and where it leaves IP, and that no other
step raises StarvationError (spec/60_exceptions.md R244).
-/

namespace Sys2Proof.Machine

/-! ## What `read_input` does on an empty queue -/

theorem popInput_nil {s : State} (h : s.iq = []) : popInput s = .raise ⟨.starvationError, 1, 0⟩ s := by
  simp only [popInput, h]

/-- R160: on an empty IQ the body of `read_input` ends at the pop, with IP past the parameter word. -/
theorem readInputBody_starves {s : State} (h : s.Fits 2) (hq : s.iq = []) (m1 : Mode) :
    readInputBody m1 (s.advanced 1) = .raise ⟨.starvationError, 1, 0⟩ (s.advanced 2) := by
  have e1 : fetchWord 1 (s.advanced 1) = .ok (s.param 1) (s.advanced 2) := fetchWord_of_fits h 1 (by decide)
  rw [readInputBody, e1, SubStep.ok_bind, popInput_nil (s := s.advanced 2) hq]
  rfl

theorem exec_readInput_starves {s : State} (hr : s.Running) (h : s.Fits 2) (hq : s.iq = []) (m1 m2 m3 : Mode) :
    exec (.readInput m1 m2 m3) s =
      .next ((s.advanced 2).faultedBy .starvationError ⟨s.ip, s.mem.read s.ip, 1, 0⟩) := by
  rw [exec_readInput, runBody_of_fits hr h (by decide), readInputBody_starves h hq]
  rfl

/-! ## The checks that raise StarvationError -/

/-- R251: the fault raised is that of one of the checks, and this check fails. -/
theorem mem_of_firstFailure {cs : List Check} {f : FaultInfo} (h : firstFailure cs = some f) : (true, f) ∈ cs := by
  induction cs with
  | nil => cases h
  | cons c cs ih =>
    obtain ⟨b, g⟩ := c
    rw [firstFailure_cons] at h
    split at h
    · next hb => exact Option.some.inj h ▸ hb ▸ List.mem_cons_self
    · exact List.mem_cons_of_mem _ (ih h)

/-- R61: the resolution of an address raises one of two kinds. -/
theorem State.kind_of_mem_address {s : State} {m : Mode} {k : Fin 4} {c : Check} (h : c ∈ s.addressChecks m k) :
    c.2.kind = .overflowFault ∨ c.2.kind = .addressFault := by
  obtain rfl | rfl : c = _ ∨ c = _ := by simpa only [State.addressChecks, List.mem_pair] using h
  · exact .inl rfl
  · exact .inr rfl

/-- R113: a source parameter raises the same two. -/
theorem State.kind_of_mem_source {s : State} {m : Mode} {k : Fin 4} {c : Check} (h : c ∈ s.sourceChecks m k) :
    c.2.kind = .overflowFault ∨ c.2.kind = .addressFault := by
  obtain rfl | h := List.mem_cons.1 h
  · exact .inl rfl
  · split at h
    · cases h
    · exact State.kind_of_mem_address h

/-- R65 to R67, R60: a store raises OperandError, a kind of its address's resolution, or CapacityFault. -/
theorem State.kind_of_mem_store {s : State} {m : Mode} {k : Fin 4} {c : Check} (h : c ∈ s.storeChecks m k) :
    c.2.kind = .operandError ∨ (c.2.kind = .overflowFault ∨ c.2.kind = .addressFault) ∨ c.2.kind = .capacityFault := by
  rw [State.storeChecks] at h
  split at h
  · obtain rfl := List.mem_singleton.1 h
    exact .inl rfl
  · obtain h | h := List.mem_append.1 h
    · exact .inr (.inl (State.kind_of_mem_address h))
    · obtain rfl := List.mem_singleton.1 h
      exact .inr (.inr rfl)

theorem State.not_mem_source_of_starvation {s : State} {m : Mode} {k : Fin 4} {c : Check}
    (hk : c.2.kind = .starvationError) : c ∉ s.sourceChecks m k := fun h => by
  simpa [hk] using State.kind_of_mem_source h

theorem State.not_mem_store_of_starvation {s : State} {m : Mode} {k : Fin 4} {c : Check}
    (hk : c.2.kind = .starvationError) : c ∉ s.storeChecks m k := fun h => by
  simpa [hk] using State.kind_of_mem_store h

/-- R244, R251: the one check of an instruction that raises StarvationError is that of `read_input` on its queue. -/
theorem State.readInput_of_mem_bodyChecks {s : State} {i : Instr} {c : Check} (h : c ∈ s.bodyChecks i)
    (hk : c.2.kind = .starvationError) : c.1 = decide (s.iq = []) ∧ ∃ m1 m2 m3, i = .readInput m1 m2 m3 := by
  have hne {d : Check} (hd : d.2.kind ≠ .starvationError) : c ≠ d := fun hcd => hd (hcd ▸ hk)
  have hincr (k : Fin 4) : c ≠ s.incrementCheck k := hne (by simp)
  have hresult (v : Int) : c ≠ s.resultCheck v := hne (by simp)
  have hjump (taken : Bool) (target : Int) : c ≠ jumpCheck taken target := hne (by simp [jumpCheck])
  cases i with
  | readInput m1 m2 m3 =>
    simp only [State.bodyChecks, List.mem_append, List.mem_singleton, hincr, State.not_mem_store_of_starvation hk,
      false_or, or_false] at h
    exact ⟨h ▸ rfl, m1, m2, m3, rfl⟩
  | add _ _ _ | multiply _ _ _ | lessThan _ _ _ | equals _ _ _ | writeOutput _ _ _ | jumpIfTrue _ _ _
  | jumpIfFalse _ _ _ | adjustRelativeBase _ _ _ | halt _ _ _ =>
    simp [State.bodyChecks, State.not_mem_source_of_starvation hk, State.not_mem_store_of_starvation hk, hincr,
      hresult, hjump, hne] at h

/-- R244, R251: the fault of a step is StarvationError only where the step is a `read_input` on an empty IQ. -/
theorem State.readInput_of_starvation {s : State} {f : FaultInfo} (h : firstFailure s.stepChecks = some f)
    (hk : f.kind = .starvationError) : s.iq = [] ∧ ∃ m1 m2 m3, decodeAtIp s = .ok (.readInput m1 m2 m3) := by
  obtain hfetch | hrest := List.mem_cons.1 (mem_of_firstFailure h)
  · have hkind : f.kind = .overflowFault := congrArg (·.2.kind) hfetch
    rw [hk] at hkind
    cases hkind
  · cases hd : decodeAtIp s with
    | error e =>
      have hkind : f.kind = .decodeError := by
        rw [hd, List.mem_singleton, Prod.mk.injEq] at hrest
        rw [hrest.2, decodeFault_kind]
      rw [hk] at hkind
      cases hkind
    | ok i =>
      rw [hd] at hrest
      obtain ⟨hq, m1, m2, m3, rfl⟩ := State.readInput_of_mem_bodyChecks hrest hk
      exact ⟨of_decide_eq_true hq.symm, m1, m2, m3, rfl⟩

/-- R244: a step from a state that meets the invariant raises StarvationError only by such a `read_input`. -/
theorem Inv.readInput_of_coreStep_starvation {s t : State} (hI : Inv s) (hr : s.Running) (h : coreStep s = .next t)
    (hc : t.status.faultCode = some .starvationError) :
    s.iq = [] ∧ ∃ m1 m2 m3, decodeAtIp s = .ok (.readInput m1 m2 m3) := by
  obtain ⟨-, hcode, -⟩ | ⟨-, f, hf, -, hcode, -⟩ := coreStep_fault hI.cfgValid h
  · rw [hcode, hI.faultCode_eq_none (by rw [hr]; decide)] at hc
    cases hc
  · exact State.readInput_of_starvation hf (Option.some.inj (hcode.symm.trans hc))

/-- Settles O44: the body ends at its pop, and no check of a step but that of this pop raises StarvationError. -/
theorem readInputStarvesOnAnEmptyQueue : Obligations.ReadInputStarvesOnAnEmptyQueue := by
  unfold Obligations.ReadInputStarvesOnAnEmptyQueue
  exact ⟨fun m1 m2 m3 _ hr h hq => exec_readInput_starves hr h hq m1 m2 m3,
    fun _ _ hI hr h hc => hI.readInput_of_coreStep_starvation hr h hc⟩

end Sys2Proof.Machine
end

section
/-!
SUPPORT. The encoder and the decoder as inverses (spec/30_encoding.md R80, R91, R94), and the cause of every rejection
(R91).
-/

namespace Sys2Proof

/-! ## The words that decode -/

/-- R80, R92: the decoder reads a line with all its parameter words as that line, whatever Words follow. -/
theorem decodeLine_encodeLine_append (policy : HighDigitPolicy) {l : Line} (h : l.params.length = l.instr.nparams)
    (rest : List Int) : decodeLine policy (encodeLine l ++ rest) = some (l, rest) := by
  have henough : ¬(l.params ++ rest).length < l.instr.nparams := by
    rw [List.length_append]
    omega
  simp only [encodeLine, List.cons_append, decodeLine, decode_encode, if_neg henough, List.take_left' h,
    List.drop_left' h]

/-- Settles O1: the instruction word by `decode_encode`, the parameter words by their count. -/
theorem decodeOfEncodeIsTheLine : Obligations.DecodeOfEncodeIsTheLine := by
  unfold Obligations.DecodeOfEncodeIsTheLine
  exact fun _ policy l rest h => ⟨decode_encode policy l.instr, decodeLine_encodeLine_append policy h.1 rest⟩

/-- R81, R94: the digits of a word are those of an instruction exactly where its five low digits are the instruction's
word. -/
theorem decodeDigits_eq_ok_iff_encode {w : Nat} {i : Instr} :
    decodeDigits w = .ok i ↔ (w : Int) % 100000 = encode i := by
  have ho := opcodeOf_lt i
  have h1 := Laws.Window.digit_le (modesOf i).1
  have h2 := Laws.Window.digit_le (modesOf i).2.1
  have h3 := Laws.Window.digit_le (modesOf i).2.2
  simp only [decodeDigits_eq_ok, encode, Int.ofNat_eq_natCast, digit]
  omega

/-- R82, R91: under `ignore` the digits above the five low ones do not matter. -/
theorem decode_ignore_eq_ok {w : Int} {i : Instr} : decode .ignore w = .ok i ↔ 0 ≤ w ∧ w % 100000 = encode i := by
  rw [decode_eq_ok, decodeDigits_eq_ok_iff_encode]
  refine and_congr_right fun h0 => ?_
  simp [Int.toNat_of_nonneg h0]

/-- R82, R91: under `fault` there are no such digits. -/
theorem decode_fault_eq_ok {w : Int} {i : Instr} : decode .fault w = .ok i ↔ w = encode i := by
  refine ⟨fun h => ?_, fun h => h ▸ decode_encode .fault i⟩
  obtain ⟨h0, hlow, hd⟩ := decode_eq_ok.1 h
  rw [decodeDigits_eq_ok_iff_encode, Int.toNat_of_nonneg h0] at hd
  rwa [Int.emod_eq_of_lt h0 (not_le.1 fun hhigh => hlow ⟨rfl, hhigh⟩)] at hd

/-- Settles O2, one policy by each lemma. -/
theorem decodeAcceptsExactlyTheEncodings : Obligations.DecodeAcceptsExactlyTheEncodings := by
  unfold Obligations.DecodeAcceptsExactlyTheEncodings
  exact fun _ _ => ⟨decode_ignore_eq_ok, decode_fault_eq_ok⟩

/-- Settles O7: the five low digits of each word that decodes are the instruction's encoding; the others have the defect
named. -/
theorem wordsOfTheSpecDecode : Obligations.WordsOfTheSpecDecode := by
  unfold Obligations.WordsOfTheSpecDecode
  refine ⟨?_, ?_, ?_, ?_, ?_, ?_, ?_, ?_, ?_, ?_, by decide, by decide, by decide⟩ <;>
    exact decode_ignore_eq_ok.2 (by decide)

/-! ## The words that do not -/

/-- R84: the digits that are no mode. -/
theorem modeOfDigit_eq_none : ∀ {d : Nat}, modeOfDigit d = none ↔ 2 < d
  | 0 | 1 | 2 => by decide
  | d + 3 => by simp [modeOfDigit]

/-- R87: the ten opcodes are all there are. -/
theorem instrOfOpcode_eq_none {n : Nat} :
    instrOfOpcode n = none ↔ (n : Int) ∉ ([1, 2, 3, 4, 5, 6, 7, 8, 9, 99] : List Int) := by
  unfold instrOfOpcode
  split <;> simp_all; omega

/-- R91: mode digit `k` of `w` is the first that is no mode. -/
def FirstBadMode (w : Nat) (k : Fin 4) : Prop :=
  1 ≤ k.val ∧ 2 < digit w (k.val + 1) ∧ ∀ j : Nat, 1 ≤ j → j < k.val → digit w (j + 1) ≤ 2

theorem FirstBadMode.unique {w : Nat} {k l : Fin 4} (hk : FirstBadMode w k) (hl : FirstBadMode w l) : k = l := by
  obtain ⟨hk1, hkbad, hkfirst⟩ := hk
  obtain ⟨hl1, hlbad, hlfirst⟩ := hl
  obtain hlt | heq | hgt := lt_trichotomy k.val l.val
  · exact absurd hkbad (not_lt.2 (hlfirst k hk1 hlt))
  · exact Fin.ext heq
  · exact absurd hlbad (not_lt.2 (hkfirst l hl1 hgt))

/-- R84: a digit that is a mode. -/
theorem le_of_modeOfDigit {d : Nat} {m : Mode} (h : modeOfDigit d = some m) : d ≤ 2 :=
  not_lt.1 fun hbad => by simp [modeOfDigit_eq_none.2 hbad] at h

/-- R91 after the checks of sign and high digits: the opcode's check comes first, then the first mode digit that is no
mode. -/
theorem decodeDigits_eq_error {w : Nat} {e : DecodeErr} :
    decodeDigits w = .error e ↔ instrOfOpcode (w % 100) = none ∧ e = .badOpcode ∨
      instrOfOpcode (w % 100) ≠ none ∧ ∃ k, FirstBadMode w k ∧ e = .badMode k := by
  unfold decodeDigits
  split
  · next hop => simp [hop, eq_comm]
  next mk hop =>
  have hfirst {k : Fin 4} (hk : FirstBadMode w k) :
      (Except.error (.badMode k) : Except DecodeErr Instr) = .error e ↔ ∃ l, FirstBadMode w l ∧ e = .badMode l :=
    ⟨fun h => ⟨k, hk, (Except.error.inj h).symm⟩, fun ⟨l, hl, he⟩ => by rw [he, hk.unique hl]⟩
  simp only [hop, reduceCtorEq, false_and, false_or, ne_eq, not_false_eq_true, true_and]
  split
  · next h1 => exact hfirst ⟨le_rfl, modeOfDigit_eq_none.1 h1, fun j hj hlt => absurd hlt (not_lt.2 hj)⟩
  next m1 h1 =>
  split
  · next h2 =>
    refine hfirst ⟨by decide, modeOfDigit_eq_none.1 h2, fun j hj hlt => ?_⟩
    obtain rfl : j = 1 := le_antisymm (Nat.le_of_lt_succ hlt) hj
    exact le_of_modeOfDigit h1
  next m2 h2 =>
  have h12 (j : Nat) (hj : 1 ≤ j) (hlt : j < 3) : digit w (j + 1) ≤ 2 := by
    obtain rfl | rfl : j = 1 ∨ j = 2 := by omega
    · exact le_of_modeOfDigit h1
    · exact le_of_modeOfDigit h2
  split
  · next h3 => exact hfirst ⟨by decide, modeOfDigit_eq_none.1 h3, h12⟩
  · next m3 h3 =>
    simp only [reduceCtorEq, false_iff]
    rintro ⟨k, ⟨hk, hbad, -⟩, -⟩
    obtain hlt | heq : k.val < 3 ∨ k.val = 3 := by omega
    · exact absurd hbad (not_lt.2 (h12 k hk hlt))
    · rw [heq] at hbad
      exact absurd hbad (not_lt.2 (le_of_modeOfDigit h3))

/-- R91: the checks of sign and high digits, and then the digits. -/
theorem decode_eq_error {policy : HighDigitPolicy} {w : Int} {e : DecodeErr} :
    decode policy w = .error e ↔ w < 0 ∧ e = .negativeWord ∨
      0 ≤ w ∧ (policy = .fault ∧ 100000 ≤ w) ∧ e = .highDigits ∨
      0 ≤ w ∧ ¬(policy = .fault ∧ 100000 ≤ w) ∧ decodeDigits w.toNat = .error e := by
  unfold decode
  split
  · next hneg => simp [hneg, not_le.2 hneg, eq_comm]
  · next h0 =>
    split
    · next hhigh => simp [h0, not_lt.1 h0, hhigh, eq_comm]
    · next hlow => simp only [h0, not_lt.1 h0, hlow, not_false_eq_true, true_and, false_and, and_false, false_or]

/-- R10: the digits of a word that is not negative, read off the integer. -/
theorem two_lt_digit_toNat {w : Int} (h : 0 ≤ w) (k : Nat) : 2 < digit w.toNat k ↔ 2 < w / 10 ^ k % 10 := by
  lift w to Nat using h
  simp only [digit, Int.toNat_natCast]
  exact_mod_cast Iff.rfl

theorem firstBadMode_toNat {w : Int} (h : 0 ≤ w) (k : Fin 4) :
    FirstBadMode w.toNat k ↔
      1 ≤ k.val ∧ 2 < w / 10 ^ (k.val + 1) % 10 ∧ ∀ j : Nat, 1 ≤ j → j < k.val → w / 10 ^ (j + 1) % 10 ≤ 2 := by
  simp only [FirstBadMode, two_lt_digit_toNat h, ← not_lt]

/-- Settles O3, from the two inversions of the decoder. -/
theorem decoderRejectsInTheOrderOfItsChecks : Obligations.DecoderRejectsInTheOrderOfItsChecks := by
  unfold Obligations.DecoderRejectsInTheOrderOfItsChecks
  intro policy w
  have hop (h0 : 0 ≤ w) : ((w.toNat % 100 : Nat) : Int) = w % 100 := by
    rw [Int.natCast_emod, Int.toNat_of_nonneg h0]
    rfl
  simp only [decode_eq_error, decodeDigits_eq_error, instrOfOpcode_eq_none, ne_eq, not_not]
  refine ⟨by simp, by simp, ?_, fun k => ?_⟩
  · simp only [reduceCtorEq, and_false, false_or, or_false, exists_false, and_true]
    exact and_congr_right fun h0 => by rw [hop h0]
  · simp only [reduceCtorEq, and_false, false_or, DecodeErr.badMode.injEq, exists_eq_right']
    exact and_congr_right fun h0 => by rw [hop h0, firstBadMode_toNat h0]

end Sys2Proof
end

section
/-!
SUPPORT. A step whose word does not decode (spec/30_encoding.md R87, 40_execution.md R112), and the first consequences of
the decode for a step: what it runs, and which mode digits it does not look at.
-/

namespace Sys2Proof.Machine

/-! ## DecodeErrors -/

/-- R24: a core whose IP can be advanced can read the instruction word. -/
theorem State.fits_one {s : State} (h : s.cfg.IsWord (s.ip + 1)) : s.Fits 1 := h

/-- R112, R248: a step whose word does not decode leaves IP past the word, and the fault record. -/
theorem coreStep_decodeError {s : State} {e : DecodeErr} (hr : s.Running) (hw : s.cfg.IsWord (s.ip + 1))
    (hd : decodeAtIp s = .error e) :
    coreStep s = .next ((s.advanced 1).faultedBy .decodeError
      ⟨s.ip, s.mem.read s.ip, (decodeFault e).param, (decodeFault e).value⟩) := by
  have h0 := fetchWord_of_fits (State.fits_one hw) 0 le_rfl
  rw [Fin.val_zero, State.advanced_zero] at h0
  simp only [coreStep, if_pos hr, hd, h0, SubStep.ok_bind]
  rw [← decodeFault_kind e]
  rfl

/-- Settles O26: FAULT_PARAM and FAULT_VALUE of the four causes. -/
theorem decodeErrorLeavesIpAdvanced : Obligations.DecodeErrorLeavesIpAdvanced := by
  unfold Obligations.DecodeErrorLeavesIpAdvanced
  intro s e hr hw hd
  rw [coreStep_decodeError hr hw hd]
  cases e <;> rfl

/-- R87: the opcodes that decode. -/
theorem opcode_of_decode {policy : HighDigitPolicy} {w : Int} {i : Instr} (h : decode policy w = .ok i) :
    1 ≤ w % 100 ∧ w % 100 ≤ 9 ∨ w % 100 = 99 := by
  obtain ⟨h0, -, hd⟩ := decode_eq_ok.1 h
  obtain ⟨hop, -⟩ := decodeDigits_eq_ok.1 hd
  have hi : 1 ≤ opcodeOf i ∧ opcodeOf i ≤ 9 ∨ opcodeOf i = 99 := by cases i <;> simp [opcodeOf]
  omega

theorem coreStep_unknown_opcode {s : State} (hr : s.Running) (hw : s.cfg.IsWord (s.ip + 1))
    (hop : s.mem.read s.ip % 100 = 0 ∨ 10 ≤ s.mem.read s.ip % 100 ∧ s.mem.read s.ip % 100 ≤ 98) :
    ∃ t, coreStep s = .next t ∧ t.status.state = .faulted ∧ t.status.faultCode = some .decodeError := by
  cases hd : decodeAtIp s with
  | ok i =>
    have := opcode_of_decode hd
    omega
  | error e => exact ⟨_, coreStep_decodeError hr hw hd, rfl, rfl⟩

/-- Settles O4: an absent address reads 0, whose opcode is 0. -/
theorem unknownOpcodeFaultsAtItsStep : Obligations.UnknownOpcodeFaultsAtItsStep := by
  unfold Obligations.UnknownOpcodeFaultsAtItsStep
  refine fun s hr hw => ⟨fun _ hop => coreStep_unknown_opcode hr hw hop, fun habsent => ?_⟩
  exact coreStep_unknown_opcode hr hw (.inl (by rw [Memory.read_of_not_present habsent]; rfl))

/-! ## The instruction that a step runs -/

/-- Settles O6: `exec` passes on the mode digits of an opcode's parameters alone; the three words by the decoder. -/
theorem unusedModeDigitsHaveNoEffect : Obligations.UnusedModeDigitsHaveNoEffect := by
  unfold Obligations.UnusedModeDigitsHaveNoEffect
  refine ⟨fun _ _ _ _ _ _ => ⟨rfl, rfl, rfl, rfl, rfl⟩, fun _ _ _ _ _ _ _ => rfl, fun policy =>
    ⟨decode_encode policy (.halt .relative .relative .relative),
      decode_encode policy (.halt .position .position .position), ?_⟩⟩
  cases policy <;> decide

/-- The machine's step is one pass of the command, whatever it returns. -/
theorem step_of_turn {s t : State} {r : Option Reply}
    (h : turn (currentCommand s) (accept (currentCommand s) s) = .next (r, t)) : step s = .next t := by
  simp only [step, nextTurn, h]

/-- Every step of the machine is a next state. -/
theorem step_next (s : State) : ∃ t, step s = .next t := by
  obtain ⟨_, t, h⟩ := turn_next (currentCommand s) (accept (currentCommand s) s)
  exact ⟨t, step_of_turn h⟩

/-- Settles O25: a pass of a command and the body of an instruction always end in a state. -/
theorem everyStepAnswersANextState : Obligations.EveryStepAnswersANextState := by
  unfold Obligations.EveryStepAnswersANextState
  exact fun s => ⟨step_next s, fun i => exec_next i s⟩

/-- R216: one pass of `step()` is a step of the core and its return. -/
theorem turn_step {s u : State} (h : coreStep s = .next u) :
    turn .step s = .next (some (stepReply u), finish (stepReply u) u) := by
  simp only [turn, loopDecision, h, afterStep]

/-- R217 to R219: one pass of a run command whose loop goes on is a step of the core. -/
theorem turn_of_continue {c : Command} (hc : c ≠ .step) {s u : State} (hd : loopDecision c s = none)
    (h : coreStep s = .next u) : turn c s = .next (none, u) := by
  cases c with
  | step => exact absurd rfl hc
  | runToEnd | runWhileInput | runUntilOutput => simp only [turn, hd, h, afterStep]

theorem step_of_idle {s u : State} (hi : s.Idle) (h : coreStep (accept .step s) = .next u) :
    step s = .next (finish (stepReply u) u) :=
  step_of_turn (by rw [currentCommand_of_idle hi, turn_step h])

/-- A command has at most one result. -/
theorem Returns.unique {c : Command} {s t t' : State} {r r' : Reply} (h : Returns c s r t) (h' : Returns c s r' t') :
    r = r' ∧ t = t' := by
  obtain ⟨-, n, hn⟩ := h
  obtain ⟨-, n', hn'⟩ := h'
  have heq := (runTurns_mono hn (max n n') (le_max_left n n')).symm.trans (runTurns_mono hn' _ (le_max_right n n'))
  exact Prod.mk.inj (Option.some.inj heq)

/-- R31, R216: the return of `step()` writes LAST_EXIT by the STATE its step left. -/
theorem release_stepReply (t : State) : t.status.release (exitOf (stepReply t)) = t.status.afterStepCommand := by
  rw [Status.afterStepCommand, Status.release, stepReply]
  cases t.status.state <;> rfl

/-- Settles O24: the command `step()` on an idle core, and a pass of a run command on a busy one. -/
theorem stepRunsTheDecodedInstruction : Obligations.StepRunsTheDecodedInstruction := by
  unfold Obligations.StepRunsTheDecodedInstruction
  refine ⟨fun s t r h => ?_, fun s i hr hd => ⟨fun hi t ht => ?_, fun c hb hc hloop => ?_⟩⟩
  · have ⟨hi, _⟩ := h
    obtain ⟨u, hu⟩ := coreStep_next (accept .step s)
    obtain ⟨-, rfl⟩ := h.unique (returns_step_of_coreStep hi hu)
    exact step_of_idle hi hu
  · rw [step_of_idle hi ((coreStep_of_decode (s := accept .step s) hr hd).trans ht), finish_stepReply,
      release_stepReply]
    rfl
  · obtain ⟨u, hu⟩ := coreStep_next s
    rw [← coreStep_of_decode hr hd, hu]
    refine step_of_turn (r := none) ?_
    rw [currentCommand_of_busy hb, accept_of_busy hb, turn_of_continue hc hloop hu]

end Sys2Proof.Machine
end

section
/-!
SUPPORT. The fields of the STATUS register (spec/10_state.md R28), the state construction leaves (R42), which meets the
invariant, and the writes to RB and the queues that keep it (spec/48_run_protocol.md R210).
-/

namespace Sys2Proof.Machine

/-! ## The STATUS register -/

/-- R28: the fields of STATUS stand in their bits, and the other bits are 0. -/
theorem Status.word_fields (st : Status) :
    st.word.toNat % 4 = st.state.code ∧ st.word.toNat / 4 % 4 = 0 ∧
      st.word.toNat / 16 % 16 = faultCodeNumber st.faultCode ∧ st.word.toNat / 256 % 8 = st.lastExit.code ∧
      st.word.toNat / 2048 % 2 = busyBit st.busy ∧ st.word.toNat / 4096 = 0 := by
  obtain ⟨hw, h1, h2, h3, h4⟩ := st.word_toNat
  omega

theorem busyBit_of_ne_none {b : Option Command} (h : b ≠ none) : busyBit b = 1 := by
  obtain ⟨c, rfl⟩ := Option.ne_none_iff_exists'.1 h
  rfl

/-- Settles O15: each field stands in its bits, and each value of a field has its code. -/
theorem statusWordHasTheStatedLayout : Obligations.StatusWordHasTheStatedLayout := by
  unfold Obligations.StatusWordHasTheStatedLayout
  intro st
  obtain ⟨hstate, hlow, hcode, hexit, hbusy, hhigh⟩ := st.word_fields
  refine ⟨hstate, ?_, hlow, hcode, ?_, hexit, ?_, fun h => hbusy.trans (congrArg busyBit h),
    fun h => hbusy.trans (busyBit_of_ne_none h), hhigh⟩
  · and_intros <;> exact fun h => hstate.trans (congrArg RunState.code h)
  · and_intros <;> exact fun h => hcode.trans (congrArg faultCodeNumber h)
  · and_intros <;> exact fun h => hexit.trans (congrArg LastExit.code h)

/-! ## Construction -/

/-- Settles O9: the memory as O8 says, and every other field as `State.initial` writes it. -/
theorem constructLeavesTheResetState : Obligations.ConstructLeavesTheResetState := by
  unfold Obligations.ConstructLeavesTheResetState
  intro c program s h
  obtain ⟨-, hleaves⟩ := constructIsRefusedInTwoCases c program
  obtain ⟨hs, hprogram, helse⟩ := hleaves s h
  refine ⟨?_, ?_, ?_, ?_, ?_, ?_, ?_, ?_, hprogram, helse⟩ <;> rw [hs] <;> rfl

theorem construct_empty : construct Config.standard [] = some State.reset :=
  construct_eq_some.2 ⟨by decide, rfl⟩

/-- Settles O10: the program is empty, and the rest is as every construction leaves it. -/
theorem resetIsTheEmptyConstruction : Obligations.ResetIsTheEmptyConstruction := by
  unfold Obligations.ResetIsTheEmptyConstruction
  obtain ⟨-, hip, hrb, hiq, hoq, -, hstatus, hfr, -⟩ := constructLeavesTheResetState _ _ _ construct_empty
  exact ⟨construct_empty, hip, hrb, rfl, hiq, hoq, hstatus, hfr⟩

/-- R53, R59: what a program loaded at address 0 of an empty memory makes present is a valid address. -/
theorem Memory.valid_of_present_load_empty {c : Config} {program : List Int} {a : Int}
    (hlen : (program.length : Int) ≤ c.wordMax + 1) (h : (Memory.load ⟨[], []⟩ 0 program).Present a) :
    c.IsWord a ∧ (c.negAddrPolicy = .fault → 0 ≤ a) := by
  obtain ⟨h0, hlt⟩ := (Memory.present_load_empty program a).1 h
  exact ⟨⟨(wordMin_neg c).le.trans h0, by omega⟩, fun _ => h0⟩

/-- Settles O12: the memory by what a load leaves, the rest by the reset values. -/
theorem invariantHoldsAtConstruction : Obligations.InvariantHoldsAtConstruction := by
  unfold Obligations.InvariantHoldsAtConstruction
  intro c program s hv hlen h
  obtain ⟨⟨hwords, hcap⟩, rfl⟩ := construct_eq_some.1 h
  have h0 : c.IsWord 0 := Config.isWord_of_valid hv (by decide) (by decide)
  obtain ⟨-, hcount, -, hcells⟩ :=
    Memory.load_fresh program (m := ⟨[], []⟩) 0 State.reset_mem_wf fun b hb => absurd hb (Memory.not_present_empty b)
  exact
    { cfgValid := hv
      ipWord := h0
      rbWord := h0
      memWf := Memory.load_wf program 0 State.reset_mem_wf
      memWords := fun e he => hwords e.2 ((hcells e he).resolve_left List.not_mem_nil)
      cellsValid := fun a ha => Memory.valid_of_present_load_empty hlen (.inl ha)
      zerosValid := fun a ha => Memory.valid_of_present_load_empty hlen (.inr ha)
      iqWords := List.forall_mem_nil _
      oqWords := List.forall_mem_nil _
      haltedIff := by simp [State.initial, ipReset]
      faultCodeIff := by simp [State.initial]
      frClear := fun _ => rfl
      frWords := ⟨h0, h0, h0⟩
      memFits := fun cap hc => (hcount.trans (Nat.zero_add _)).le.trans (hcap cap hc)
      iqFits := fun cap _ => Nat.zero_le cap
      oqFits := fun cap _ => Nat.zero_le cap }

/-- Settles O11: reset is a construction. -/
theorem invariantHoldsAtReset : Obligations.InvariantHoldsAtReset := by
  unfold Obligations.InvariantHoldsAtReset
  exact invariantHoldsAtConstruction _ _ _ (by decide) (by decide) construct_empty

/-! ## Writes to RB and the queues -/

theorem Inv.setRb {s : State} (h : Inv s) {v : Int} (hv : s.cfg.IsWord v) : Inv (s.setRb v) :=
  { h with rbWord := hv }

/-- R160, R214: a queue without its front entry, or empty as it was. -/
theorem Inv.setIq_tail {s : State} (h : Inv s) : Inv (s.setIq s.iq.tail) :=
  { h with
    iqWords := fun v hv => h.iqWords v (List.mem_of_mem_tail hv)
    iqFits := fun cap hcap => (List.tail_sublist _).length_le.trans (h.iqFits cap hcap) }

theorem Inv.setOq_tail {s : State} (h : Inv s) : Inv (s.setOq s.oq.tail) :=
  { h with
    oqWords := fun v hv => h.oqWords v (List.mem_of_mem_tail hv)
    oqFits := fun cap hcap => (List.tail_sublist _).length_le.trans (h.oqFits cap hcap) }

theorem forall_mem_append_singleton {p : Int → Prop} {q : List Int} {v : Int} (hq : ∀ x ∈ q, p x) (hv : p v) :
    ∀ x ∈ q ++ [v], p x :=
  List.forall_mem_append.2 ⟨hq, List.forall_mem_singleton.2 hv⟩

/-- R164, R213: a queue that has room holds one more entry. -/
theorem length_append_singleton_le {capacity : Option Nat} {q : List Int} (h : hasRoom capacity q.length = true)
    (v : Int) : ∀ cap ∈ capacity, (q ++ [v]).length ≤ cap := fun cap hcap => by
  rw [List.length_append]
  exact hasRoom_iff.1 h cap hcap

theorem Inv.setIq_append {s : State} (h : Inv s) {v : Int} (hv : s.cfg.IsWord v)
    (hroom : hasRoom s.cfg.iqCapacity s.iq.length = true) : Inv (s.setIq (s.iq ++ [v])) :=
  { h with
    iqWords := forall_mem_append_singleton h.iqWords hv
    iqFits := length_append_singleton_le hroom v }

theorem Inv.setOq_append {s : State} (h : Inv s) {v : Int} (hv : s.cfg.IsWord v)
    (hroom : hasRoom s.cfg.oqCapacity s.oq.length = true) : Inv (s.setOq (s.oq ++ [v])) :=
  { h with
    oqWords := forall_mem_append_singleton h.oqWords hv
    oqFits := length_append_singleton_le hroom v }

theorem Inv.accept {s : State} (h : Inv s) (c : Command) : Inv (accept c s) :=
  { h with }

/-- Settles O14: the host does nothing, or one of four writes that keep the invariant. -/
theorem hostOperationsKeepTheInvariant : Obligations.HostOperationsKeepTheInvariant := by
  unfold Obligations.HostOperationsKeepTheInvariant
  intro op s hI
  obtain h | ⟨-, v, -, hv, hroom, h⟩ | ⟨-, v, rest, -, hq, h⟩ | ⟨-, b, -, hb, h⟩ | ⟨-, c, -, h⟩ := hostOp_cases op s <;>
    rw [h] <;> refine ⟨?_, rfl⟩
  · exact hI
  · exact hI.setIq_append hv hroom
  · have htail := hI.setOq_tail
    rwa [hq] at htail
  · exact hI.setRb hb
  · exact hI.accept c

end Sys2Proof.Machine
end

section
/-!
SUPPORT. The invariant over a step (spec/00_scope.md R9, 10_state.md R29 to R33, 20_memory.md R59, R60): a fault records
Words, an instruction that completes and one that faults keep the invariant, and so does the return of a command.
-/

namespace Sys2Proof.Machine

/-! ## What the checks of the instructions that store say -/

/-- R143, R144: the result of a comparison is a Word. -/
theorem isWord_bit {c : Config} (hv : c.Valid) (p : Prop) [Decidable p] : c.IsWord (if p then 1 else 0) := by
  refine Config.isWord_of_valid hv ?_ ?_ <;> split <;> decide

/-- R141 to R144, R249: where the checks of a `Binary` pass, its Words can be read, its result is a Word and its
destination can be stored through. -/
theorem Binary.of_bodyChecks {s : State} {b : Binary} {m1 m2 m3 : Mode} (hv : s.cfg.Valid)
    (h : firstFailure (s.bodyChecks (b.instr m1 m2 m3)) = none) :
    s.Reached 4 ∧ s.cfg.IsWord (b.result (s.operand m1 1) (s.operand m2 2)) ∧ s.CanStore m3 3 := by
  cases b with
  | add | multiply =>
    simp only [Binary.instr, State.bodyChecks, firstFailure_append_eq_none] at h
    obtain ⟨⟨⟨-, hread⟩, hresult⟩, hstore⟩ := h
    exact ⟨State.reached_of_increment hread, (State.isWord_of_result hresult).1, State.of_store hstore⟩
  | lessThan | equals =>
    simp only [Binary.instr, State.bodyChecks, firstFailure_append_eq_none] at h
    obtain ⟨⟨-, hread⟩, hstore⟩ := h
    exact ⟨State.reached_of_increment hread, isWord_bit hv _, State.of_store hstore⟩

theorem Binary.completed_instr (s : State) (b : Binary) (m1 m2 m3 : Mode) :
    s.completed (b.instr m1 m2 m3) =
      (s.advanced 4).setMem (s.mem.write (s.operandAddr m3 3) (b.result (s.operand m1 1) (s.operand m2 2))) := by
  cases b <;> rfl

/-- R160, R249: where the checks of `read_input` pass, its Words can be read and its destination can be stored through. -/
theorem State.of_readInput_checks {s : State} {m1 m2 m3 : Mode}
    (h : firstFailure (s.bodyChecks (.readInput m1 m2 m3)) = none) : s.Reached 2 ∧ s.CanStore m1 1 := by
  simp only [State.bodyChecks, firstFailure_append_eq_none] at h
  obtain ⟨⟨hread, -⟩, hstore⟩ := h
  exact ⟨State.reached_of_increment hread, State.of_store hstore⟩

/-! ## Instructions that complete -/

/-- R53: a store at the end of an instruction keeps the invariant. -/
theorem Inv.store {s : State} (h : Inv s) {n : Nat} (hn : Inv (s.advanced n)) {m : Mode} {k : Nat} {v : Int}
    (hv : s.cfg.IsWord v) (hs : s.CanStore m k) :
    Inv ((s.advanced n).setMem (s.mem.write (s.operandAddr m k) v)) := by
  obtain ⟨-, haddr, hroom⟩ := hs
  exact hn.setMem_write hv ⟨h.isWord_operandAddr haddr, haddr.2⟩ hroom

theorem Inv.completed_binary {s : State} (h : Inv s) (hr : s.Running) {b : Binary} {m1 m2 m3 : Mode}
    (hc : firstFailure (s.bodyChecks (b.instr m1 m2 m3)) = none) : Inv (s.completed (b.instr m1 m2 m3)) := by
  obtain ⟨hread, hresult, hstore⟩ := Binary.of_bodyChecks h.cfgValid hc
  rw [Binary.completed_instr]
  exact h.store (h.advanced hr hread) hresult hstore

/-- R180 to R182: a jump whose checks pass, taken or not. -/
theorem Inv.completed_jump {s : State} (h : Inv s) (hr : s.Running) {m1 m2 : Mode} {taken : Bool}
    (hc : firstFailure (s.sourceChecks m1 1 ++ s.sourceChecks m2 2 ++ [jumpCheck taken (s.operand m2 2)]) = none) :
    Inv (if taken = true then s.setIp (s.operand m2 2) else s.advanced 3) := by
  obtain ⟨hsources, htarget⟩ := firstFailure_append_eq_none.1 hc
  split
  · next ht => exact h.setIp hr (nonneg_of_jumpCheck htarget ht) (h.isWord_operand m2 2)
  · exact h.advanced hr (.inr (State.of_source (firstFailure_append_eq_none.1 hsources).2).1)

/-- R183: `halt`. -/
theorem Inv.halted {s : State} (h : Inv s) (hr : s.Running) :
    Inv ((s.setIp s.cfg.haltSentinel).setStatus s.status.enterHalted) := by
  obtain ⟨-, hword, hneg⟩ := h.cfgValid
  have hrun : s.status.state = .running := hr
  exact { h with
    ipWord := hword
    haltedIff := ⟨fun _ => hneg, fun _ => rfl⟩
    faultCodeIff := by simp [h.faultCode_eq_none (by simp [hrun] : s.status.state ≠ .faulted)]
    frClear := fun _ => h.frClear (by simp [hrun]) }

/-- R160: the Word that `read_input` takes. -/
theorem Inv.isWord_headD {s : State} (h : Inv s) : s.cfg.IsWord (s.iq.headD 0) := by
  cases hq : s.iq with
  | nil => exact Config.isWord_of_valid h.cfgValid (by decide) (by decide)
  | cons x rest => exact h.iqWords x (hq ▸ List.mem_cons_self)

/-- An instruction none of whose checks fails keeps the invariant. -/
theorem Inv.completed {s : State} {i : Instr} (h : Inv s) (hr : s.Running)
    (hc : firstFailure (s.bodyChecks i) = none) : Inv (s.completed i) := by
  cases i with
  | add m1 m2 m3 => exact h.completed_binary hr (b := .add) hc
  | multiply m1 m2 m3 => exact h.completed_binary hr (b := .multiply) hc
  | lessThan m1 m2 m3 => exact h.completed_binary hr (b := .lessThan) hc
  | equals m1 m2 m3 => exact h.completed_binary hr (b := .equals) hc
  | readInput m1 m2 m3 =>
    obtain ⟨hread, hstore⟩ := State.of_readInput_checks hc
    exact (h.store (h.advanced hr hread) h.isWord_headD hstore).setIq_tail
  | writeOutput m1 m2 m3 =>
    obtain ⟨hsource, hroom⟩ := firstFailure_append_eq_none.1 hc
    obtain ⟨hfull, -⟩ := firstFailure_cons_eq_none.1 hroom
    exact (h.advanced hr (.inr (State.of_source hsource).1)).setOq_append (h.isWord_operand m1 1)
      (by simpa using hfull)
  | jumpIfTrue m1 m2 m3 =>
    have hjump := h.completed_jump hr hc
    simp only [decide_eq_true_eq] at hjump
    exact hjump
  | jumpIfFalse m1 m2 m3 =>
    have hjump := h.completed_jump hr hc
    simp only [decide_eq_true_eq] at hjump
    exact hjump
  | adjustRelativeBase m1 m2 m3 =>
    obtain ⟨hsource, hresult⟩ := firstFailure_append_eq_none.1 hc
    exact (h.advanced hr (.inr (State.of_source hsource).1)).setRb (State.isWord_of_result hresult).1
  | halt m1 m2 m3 => exact h.halted hr

/-! ## Faults -/

/-- R33: whichever of the checks raises a fault, FAULT_VALUE is a Word. -/
def RecordsWords (c : Config) (cs : List Check) : Prop := ∀ f, firstFailure cs = some f → c.IsWord f.value

theorem RecordsWords.nil (c : Config) : RecordsWords c [] := fun _ h => by cases h

theorem RecordsWords.append {c : Config} {cs ds : List Check} (hc : RecordsWords c cs) (hd : RecordsWords c ds) :
    RecordsWords c (cs ++ ds) := fun f h =>
  (firstFailure_append_eq_some.1 h).elim (hc f) fun h => hd f h.2

/-- The value of a check is recorded only if it fails, and the later ones only if it does not. -/
theorem RecordsWords.cons {c : Config} {b : Bool} {f : FaultInfo} {cs : List Check} (hf : b = true → c.IsWord f.value)
    (hcs : b = false → RecordsWords c cs) : RecordsWords c ((b, f) :: cs) := by
  intro g hg
  cases b with
  | true => exact Option.some.inj hg ▸ hf rfl
  | false => exact hcs rfl g hg

theorem RecordsWords.one {c : Config} {check : Check} (h : c.IsWord check.2.value) : RecordsWords c [check] :=
  RecordsWords.cons (fun _ => h) fun _ => .nil c

/-- R248: the number of a DecodeError's cause. -/
theorem decodeFault_value_bounds (e : DecodeErr) : 0 ≤ (decodeFault e).value ∧ (decodeFault e).value ≤ 4 := by
  cases e <;> simp [decodeFault]

section
variable {s : State} (h : Inv s)
include h

theorem Inv.isWord_small (v : Int) (h0 : 0 ≤ v) (h4 : v ≤ 4) : s.cfg.IsWord v :=
  Config.isWord_of_valid h.cfgValid (by omega) (by omega)

theorem Inv.recordsWords_increment (k : Fin 4) : RecordsWords s.cfg [s.incrementCheck k] :=
  .one (h.isWord_small 1 (by decide) (by decide))

/-- R246: a relative address is recorded only after its own check has not failed. -/
theorem Inv.recordsWords_address (m : Mode) (k : Fin 4) : RecordsWords s.cfg (s.addressChecks m k) := by
  refine .cons (fun _ => h.isWord_small 2 (by decide) (by decide)) fun hrange => .one ?_
  cases m with
  | position | immediate => exact h.isWord_read _
  | relative => simpa using of_decide_eq_false hrange

theorem Inv.recordsWords_source (m : Mode) (k : Fin 4) : RecordsWords s.cfg (s.sourceChecks m k) := by
  refine (h.recordsWords_increment k).append (ds := if m = .immediate then [] else s.addressChecks m k) ?_
  split
  · exact .nil _
  · exact h.recordsWords_address m k

theorem Inv.recordsWords_store (m : Mode) (k : Fin 4) : RecordsWords s.cfg (s.storeChecks m k) := by
  unfold State.storeChecks
  split
  · exact .one (h.isWord_read _)
  · exact (h.recordsWords_address m k).append (.one (h.isWord_small 1 (by decide) (by decide)))

theorem Inv.recordsWords_result (v : Int) : RecordsWords s.cfg [s.resultCheck v] :=
  .one (h.isWord_small 3 (by decide) (by decide))

/-- R33, R251: the fault of an instruction records a Word. -/
theorem Inv.recordsWords_body (i : Instr) : RecordsWords s.cfg (s.bodyChecks i) := by
  have hsource := h.recordsWords_source
  have hincr := h.recordsWords_increment
  have hstore := h.recordsWords_store
  have hjump (taken : Bool) (m2 : Mode) : RecordsWords s.cfg [jumpCheck taken (s.operand m2 2)] :=
    .one (h.isWord_operand m2 2)
  cases i with
  | add m1 m2 m3 | multiply m1 m2 m3 =>
    exact ((((hsource m1 1).append (hsource m2 2)).append (hincr 3)).append (h.recordsWords_result _)).append
      (hstore m3 3)
  | lessThan m1 m2 m3 | equals m1 m2 m3 =>
    exact (((hsource m1 1).append (hsource m2 2)).append (hincr 3)).append (hstore m3 3)
  | readInput m1 m2 m3 =>
    exact ((hincr 1).append (.one (h.isWord_small 0 (by decide) (by decide)))).append (hstore m1 1)
  | writeOutput m1 m2 m3 => exact (hsource m1 1).append (.one (h.isWord_small 2 (by decide) (by decide)))
  | jumpIfTrue m1 m2 m3 | jumpIfFalse m1 m2 m3 => exact ((hsource m1 1).append (hsource m2 2)).append (hjump _ m2)
  | adjustRelativeBase m1 m2 m3 => exact (hsource m1 1).append (h.recordsWords_result _)
  | halt m1 m2 m3 => exact .nil _

theorem Inv.recordsWords_step : RecordsWords s.cfg s.stepChecks := by
  refine (h.recordsWords_increment 0).append ?_
  split
  · next e _ =>
    obtain ⟨h0, h4⟩ := decodeFault_value_bounds e
    exact .one (h.isWord_small _ h0 h4)
  · next i _ => exact h.recordsWords_body i

/-- R249: the state an instruction faults in meets the invariant up to the fault's entry. -/
theorem Inv.of_within (hr : s.Running) {n : Nat} {u : State} (hu : s.Within n u) : Inv u := by
  obtain ⟨j, -, hj, rfl⟩ := hu
  exact h.advanced hr hj

theorem Inv.of_partial (hr : s.Running) {i : Instr} {u : State} (hu : s.Partial i u) : Inv u := by
  obtain hu | ⟨-, h2, rfl⟩ := hu
  · exact h.of_within hr hu
  · exact (h.advanced hr h2).setIq_tail

/-- R248: a fault's entry keeps the invariant. -/
theorem Inv.faultEntry {a w : Int} {f : FaultInfo} (h0 : 0 ≤ s.ip) (ha : s.cfg.IsWord a) (hw : s.cfg.IsWord w)
    (hf : s.cfg.IsWord f.value) : Inv (faultEntry a w f s) :=
  { h with
    haltedIff := by simp [h0]
    faultCodeIff := by simp
    frClear := fun hn => absurd rfl hn
    frWords := ⟨ha, hw, hf⟩ }

end

/-! ## Steps and commands -/

/-- R249: a step that faults writes nothing but IP and IQ before the fault's entry. -/
theorem State.Partial.eq_with {s u : State} {i : Instr} (h : s.Partial i u) : u = { s with ip := u.ip, iq := u.iq } := by
  obtain ⟨j, -, -, rfl⟩ | ⟨-, -, rfl⟩ := h <;> rfl

/-- R8: no instruction writes the parameters. -/
theorem State.completed_cfg (s : State) (i : Instr) : (s.completed i).cfg = s.cfg := by
  cases i with
  | jumpIfTrue _ _ _ | jumpIfFalse _ _ _ =>
    simp only [State.completed]
    split <;> rfl
  | _ => rfl

/-- Everything a step of the core can do, in any STATE: nothing, an instruction that completes, or a fault. (A fault before
or at the decode is within the one Word of a `halt`.) -/
theorem coreStep_outcomes {s t : State} (hv : s.cfg.Valid) (h : coreStep s = .next t) :
    t = s ∨
    s.Running ∧ (∃ i, decodeAtIp s = .ok i ∧ firstFailure (s.bodyChecks i) = none ∧ t = s.completed i) ∨
    s.Running ∧ ∃ f u i, firstFailure s.stepChecks = some f ∧ t = faultEntry s.ip (s.mem.read s.ip) f u ∧
      s.Partial i u ∧ (opcodeOf i = 3 → decodeAtIp s = .ok i) := by
  by_cases hr : s.Running
  · obtain ⟨i, hd, hn, ht⟩ | ⟨f, u, hf, ht, hu | ⟨i, hd, hp⟩⟩ := coreStep_cases hr hv h
    · rw [State.stepChecks_of_decode hd] at hn
      exact .inr (.inl ⟨hr, i, hd, (State.isWord_of_increment hn).2, ht⟩)
    · exact .inr (.inr ⟨hr, f, u, .halt .position .position .position, hf, ht, .inl hu, fun hop => by cases hop⟩)
    · exact .inr (.inr ⟨hr, f, u, i, hf, ht, hp, fun _ => hd⟩)
  · rw [coreStep_of_not_running hr] at h
    exact .inl (Host.Outcome.next.inj h).symm

/-- R8: no step writes the parameters. -/
theorem coreStep_cfg {s t : State} (hv : s.cfg.Valid) (h : coreStep s = .next t) : t.cfg = s.cfg := by
  obtain rfl | ⟨-, i, -, -, rfl⟩ | ⟨-, f, u, i, -, rfl, hp, -⟩ := coreStep_outcomes hv h
  · rfl
  · exact s.completed_cfg i
  · rw [faultEntry_cfg, hp.eq_with]

/-- Every step of the core keeps the invariant. -/
theorem Inv.coreStep {s t : State} (h : Inv s) (ht : coreStep s = .next t) : Inv t := by
  obtain rfl | ⟨hr, i, -, hc, rfl⟩ | ⟨hr, f, u, i, hf, rfl, hp, -⟩ := coreStep_outcomes h.cfgValid ht
  · exact h
  · exact h.completed hr hc
  · have hcfg : u.cfg = s.cfg := by rw [hp.eq_with]
    exact (h.of_partial hr hp).faultEntry ((h.ip_nonneg hr).trans hp.le_ip) (hcfg ▸ h.ipWord)
      (hcfg ▸ h.isWord_read s.ip) (hcfg ▸ h.recordsWords_step f hf)

/-- The return of a command keeps the invariant. -/
theorem Inv.finish {s : State} (h : Inv s) (r : Reply) : Inv (finish r s) := by
  cases r with
  | output v => exact { h.setOq_tail with }
  | running | halted | needInput | noOutput | fault _ => exact { h with }

/-- One pass of a command keeps the invariant and the parameters. -/
theorem Inv.turn {c : Command} {s t : State} {r : Option Reply} (h : Inv s) (ht : turn c s = .next (r, t)) :
    Inv t ∧ t.cfg = s.cfg := by
  obtain ⟨q, -, -, rfl⟩ | ⟨u, -, hu, ht⟩ := turn_cases ht
  · exact ⟨h.finish q, finish_cfg q s⟩
  · have hI := h.coreStep hu
    have hcfg := coreStep_cfg h.cfgValid hu
    obtain ⟨-, -, rfl⟩ | ⟨-, -, rfl⟩ := ht
    · exact ⟨hI.finish _, (finish_cfg _ u).trans hcfg⟩
    · exact ⟨hI, hcfg⟩

/-- Settles O13: the machine's step is one pass of the command that it accepts or goes on with. -/
theorem stepKeepsTheInvariant : Obligations.StepKeepsTheInvariant := by
  unfold Obligations.StepKeepsTheInvariant
  intro s t hI h
  obtain ⟨r, ht⟩ := step_cases h
  exact (hI.accept (currentCommand s)).turn ht

end Sys2Proof.Machine
end

section
/-!
SUPPORT. What a write to memory does, from its outcome (spec/20_memory.md R53), a memory as a function of its contents
(spec/10_state.md R34), which the canonical form lists in one way, and relative loads (spec/20_memory.md R64).
-/

namespace Sys2Proof.Machine

/-! ## A write, from its outcome -/

theorem memWrite_eq_ok {s t : State} {a v : Int} {k : Fin 4} (h : memWrite a v k s = .ok () t) :
    t = s.setMem (s.mem.write a v) := by
  unfold memWrite at h
  split at h <;> cases h
  rfl

/-- R60: a write fails only where a capacity is reached, and changes nothing. -/
theorem memWrite_eq_raise {s t : State} {a v : Int} {k : Fin 4} {f : FaultInfo} (h : memWrite a v k s = .raise f t) :
    t = s ∧ ∃ cap, s.cfg.memCapacity = some cap := by
  unfold memWrite at h
  split at h
  · cases h
  · next hfull =>
    cases h
    refine ⟨rfl, Option.ne_none_iff_exists'.1 fun hnone => hfull (.inr ?_)⟩
    rw [hnone]
    rfl

/-- Settles O19: the two outcomes of a write, by the laws of memory. -/
theorem memWriteMakesTheWord : Obligations.MemWriteMakesTheWord := by
  unfold Obligations.MemWriteMakesTheWord
  refine fun s a v k hwf => ⟨fun t h => ?_, fun f t h => memWrite_eq_raise h⟩
  obtain rfl := memWrite_eq_ok h
  refine ⟨Memory.read_write_same hwf a v, (s.mem.present_write a v a).2 (.inl rfl), Memory.write_wf hwf a v,
    fun b hb => ⟨s.mem.read_write_other v hb, ?_⟩⟩
  exact (s.mem.present_write a v b).trans (or_iff_right hb)

/-! ## A memory as its contents -/

/-- R52: in a rising list a listed Word is read. -/
theorem readCell_of_mem {e : Int × Int} :
    ∀ {l : List (Int × Int)}, (l.map Prod.fst).Pairwise (· < ·) → e ∈ l → readCell e.1 l = e.2
  | (b, w) :: rest, hsorted, h => by
    obtain ⟨hfirst, hrest⟩ := List.pairwise_cons.1 hsorted
    obtain rfl | h := List.mem_cons.1 h
    · simp [readCell]
    · have hlt := hfirst e.1 (List.mem_map_of_mem h)
      rw [readCell, if_neg hlt.ne', readCell_of_mem hrest h]

/-- The cells are the addresses that read as another Word than 0. -/
theorem Memory.mem_keys_iff {m : Memory} (h : m.wf) {a : Int} : a ∈ m.cells.map Prod.fst ↔ m.read a ≠ 0 := by
  obtain ⟨-, hnonzero, -, -⟩ := h
  exact ⟨fun ha => hnonzero _ (readCell_mem ha), mem_of_readCell_ne⟩

/-- The zeros are the addresses that are present and read 0. -/
theorem Memory.mem_zeros_iff {m : Memory} (h : m.wf) {a : Int} : a ∈ m.zeros ↔ m.Present a ∧ m.read a = 0 := by
  have hkeys := Memory.mem_keys_iff h (a := a)
  obtain ⟨-, -, -, hdisjoint⟩ := h
  refine ⟨fun ha => ⟨.inr ha, not_not.1 fun hne => hdisjoint a ha (hkeys.2 hne)⟩, fun ⟨hp, h0⟩ => ?_⟩
  exact hp.resolve_left fun ha => hkeys.1 ha h0

/-- The cells are given by their addresses and by what these read as. -/
theorem Memory.cells_eq_map {m : Memory} (h : m.wf) : m.cells = (m.cells.map Prod.fst).map fun a => (a, m.read a) := by
  obtain ⟨hsorted, -⟩ := h
  rw [List.map_map]
  exact (List.map_id _).symm.trans (List.map_congr_left fun e he => Prod.ext rfl (readCell_of_mem hsorted he).symm)

/-- Settles O21: both lists of a canonical memory are rising lists, given by their members. -/
theorem equalContentsAreEqualMemories : Obligations.EqualContentsAreEqualMemories := by
  unfold Obligations.EqualContentsAreEqualMemories
  intro m n hm hn hread hpresent
  have ⟨hmcells, _, hmzeros, _⟩ := hm
  have ⟨hncells, _, hnzeros, _⟩ := hn
  have hkeys : m.cells.map Prod.fst = n.cells.map Prod.fst := hmcells.eq_of_mem_iff hncells fun a => by
    rw [Memory.mem_keys_iff hm, Memory.mem_keys_iff hn, hread]
  have hzeros : m.zeros = n.zeros := hmzeros.eq_of_mem_iff hnzeros fun a => by
    rw [Memory.mem_zeros_iff hm, Memory.mem_zeros_iff hn, hread, hpresent]
  have hcells : m.cells = n.cells := by
    rw [Memory.cells_eq_map hm, Memory.cells_eq_map hn, hkeys]
    simp only [hread]
  exact congrArg₂ Memory.mk hcells hzeros

/-! ## Relative loads -/

/-- R64: a relative load is the position load of the sum with RB. -/
theorem load_relative_eq_position {s : State} {k : Int} (n : Fin 4) (h : s.cfg.IsWord (k + s.rb)) :
    load k .relative n s = load (k + s.rb) .position n s := by
  have hrel := resolveAddr_of_effectiveAddr (effectiveAddr_eq_ok (c := s.cfg) n (.inr ⟨rfl, rfl, h⟩))
  have hpos := resolveAddr_of_effectiveAddr
    (effectiveAddr_eq_ok (c := s.cfg) (rb := s.rb) (p := k + s.rb) n (.inl ⟨rfl, rfl⟩))
  simp only [load, hrel, hpos]

end Sys2Proof.Machine
end

section
/-!
SUPPORT. What an instruction that completes and one that faults leave unchanged (spec/40_execution.md R116 to R118,
60_exceptions.md R249), and what a step of the core can therefore do to STATE, IP and the queues.
-/

namespace Sys2Proof.Machine

/-! ## The frame of an instruction -/

/-- R86: an opcode's instructions differ in their mode digits alone. -/
theorem eq_of_opcode {i : Instr} {n : Nat} {mk : Mode → Mode → Mode → Instr} (h : opcodeOf i = n)
    (hmk : instrOfOpcode n = some mk) : ∃ m1 m2 m3, i = mk m1 m2 m3 := by
  obtain ⟨mk', hmk', hi⟩ := exists_instrOfOpcode i
  rw [h, hmk, Option.some.injEq] at hmk'
  exact ⟨_, _, _, hmk' ▸ hi.symm⟩

/-- R118: which instructions write RB, memory, the queues and STATUS, where they complete. -/
theorem State.completed_frame (s : State) (i : Instr) :
    (opcodeOf i ≠ 9 → (s.completed i).rb = s.rb) ∧ (opcodeOf i ∉ [1, 2, 3, 7, 8] → (s.completed i).mem = s.mem) ∧
      (opcodeOf i ≠ 3 → (s.completed i).iq = s.iq) ∧ (opcodeOf i ≠ 4 → (s.completed i).oq = s.oq) ∧
      (opcodeOf i ≠ 99 → (s.completed i).status = s.status) := by
  cases i with
  | jumpIfTrue _ _ _ | jumpIfFalse _ _ _ =>
    simp only [State.completed]
    split <;> simp
  | _ => simp [State.completed, opcodeOf]

/-- R249: a step that faults pops IQ in `read_input` alone, and then with IP past both Words. -/
theorem State.Partial.frame {s u : State} {i : Instr} (h : s.Partial i u) :
    (∃ j : Nat, j ≤ i.length ∧ u.ip = s.ip + j) ∧
      (u.iq = s.iq ∨ opcodeOf i = 3 ∧ u.iq = s.iq.tail ∧ u.ip = s.ip + 2) := by
  obtain ⟨j, hj, -, rfl⟩ | ⟨hop, -, rfl⟩ := h
  · exact ⟨⟨j, hj, rfl⟩, .inl rfl⟩
  · obtain ⟨m1, m2, m3, rfl⟩ := eq_of_opcode hop rfl
    exact ⟨⟨2, le_rfl, rfl⟩, .inr ⟨rfl, rfl, rfl⟩⟩

/-- A queue without its front entry is the queue, if it was empty, or has lost its oldest entry. -/
theorem tail_eq_or_cons (q : List Int) : q.tail = q ∨ ∃ x, q = x :: q.tail := by
  cases q with
  | nil => exact .inl rfl
  | cons x rest => exact .inr ⟨x, rfl⟩

theorem State.not_faulted_completed {s : State} (hr : s.Running) (i : Instr) :
    (s.completed i).status.state ≠ .faulted := by
  rw [Ne, (State.sameFault_completed hr i).1, show s.status.state = .running from hr]
  decide

/-! ## STATE -/

/-- R29: a step of the core moves STATE from Running alone, to Halted by `halt` alone. -/
theorem coreStep_state {s t : State} (hv : s.cfg.Valid) (h : coreStep s = .next t) :
    t.status.state = s.status.state ∨
      (s.status.state = .running ∧ t.status.state = .halted ∧ ∃ m1 m2 m3, decodeAtIp s = .ok (.halt m1 m2 m3)) ∨
      (s.status.state = .running ∧ t.status.state = .faulted) := by
  obtain rfl | ⟨hr, i, hd, -, rfl⟩ | ⟨hr, f, u, i, -, rfl, -, -⟩ := coreStep_outcomes hv h
  · exact .inl rfl
  · by_cases hop : opcodeOf i = 99
    · obtain ⟨m1, m2, m3, rfl⟩ := eq_of_opcode hop rfl
      exact .inr (.inl ⟨hr, rfl, m1, m2, m3, hd⟩)
    · obtain ⟨-, -, -, -, hstatus⟩ := s.completed_frame i
      exact .inl (congrArg Status.state (hstatus hop))
  · exact .inr (.inr ⟨hr, rfl⟩)

/-- R29: the return of a command writes no STATE, so one pass moves it as its step does. -/
theorem turn_state {c : Command} {s t : State} {r : Option Reply} (hv : s.cfg.Valid) (h : turn c s = .next (r, t)) :
    t.status.state = s.status.state ∨
      (s.status.state = .running ∧ t.status.state = .halted ∧ ∃ m1 m2 m3, decodeAtIp s = .ok (.halt m1 m2 m3)) ∨
      (s.status.state = .running ∧ t.status.state = .faulted) := by
  obtain ⟨q, -, -, rfl⟩ | ⟨u, -, hu, ht⟩ := turn_cases h
  · exact .inl (by rw [finish_status, Status.release_state])
  · obtain ⟨-, -, rfl⟩ | ⟨-, -, rfl⟩ := ht
    · rw [finish_status]
      exact coreStep_state hv hu
    · exact coreStep_state hv hu

/-- Settles O16: one pass of the current command, and the invariant that it keeps. -/
theorem stateMovesOnlyAsStated : Obligations.StateMovesOnlyAsStated := by
  unfold Obligations.StateMovesOnlyAsStated
  intro s t hI h
  obtain ⟨r, ht⟩ := step_cases h
  obtain ⟨hIt, -⟩ := stepKeepsTheInvariant s t hI h
  exact ⟨turn_state (s := accept (currentCommand s) s) hI.cfgValid ht, hIt.haltedIff.symm, Iff.rfl⟩

/-! ## Faults -/

/-- Settles O27: a step completes or raises the fault of its first failing check. -/
theorem stepRaisesTheFirstFailingCheck : Obligations.StepRaisesTheFirstFailingCheck := by
  unfold Obligations.StepRaisesTheFirstFailingCheck
  intro s t hv hr h
  obtain ⟨i, -, hn, rfl⟩ | ⟨f, u, hf, rfl, -⟩ := coreStep_cases hr hv h
  · obtain ⟨-, hcode, hfr⟩ := State.sameFault_completed hr i
    exact ⟨fun _ => ⟨State.not_faulted_completed hr i, hcode, hfr⟩, fun g hg => by simp [hn] at hg⟩
  · exact ⟨fun hn => by simp [hf] at hn, fun g hg => Option.some.inj (hf.symm.trans hg) ▸ ⟨rfl, rfl, rfl⟩⟩

/-- Settles O28: what the state that the fault's entry is written over has kept. -/
theorem faultLeavesOnlyIncrementsAndThePop : Obligations.FaultLeavesOnlyIncrementsAndThePop := by
  unfold Obligations.FaultLeavesOnlyIncrementsAndThePop
  intro s t hv hr h hfaulted
  obtain ⟨i, -, -, rfl⟩ | ⟨f, u, -, rfl, hu⟩ := coreStep_cases hr hv h
  · exact absurd hfaulted (State.not_faulted_completed hr i)
  · obtain ⟨j, hj, -, rfl⟩ | ⟨i, hd, hp⟩ := hu
    · exact ⟨rfl, rfl, rfl, rfl, rfl, rfl, ⟨j, rfl, .inl hj⟩, .inl rfl⟩
    · obtain ⟨⟨j, hj, hip⟩, hiq⟩ := hp.frame
      have hkept := hp.eq_with
      refine ⟨by rw [hkept]; rfl, by rw [hkept]; rfl, by rw [hkept]; rfl, by rw [hkept]; rfl, by rw [hkept]; rfl,
        by rw [hkept]; rfl, ⟨j, hip, .inr ⟨i, hd, hj⟩⟩, ?_⟩
      obtain hiq | ⟨hop, hiq, hip2⟩ := hiq
      · exact .inl hiq
      · obtain ⟨m1, m2, m3, rfl⟩ := eq_of_opcode hop rfl
        rw [faultEntry_iq, hiq]
        exact (tail_eq_or_cons s.iq).imp id fun ⟨x, hx⟩ => ⟨x, m1, m2, m3, hd, hx, hip2⟩

/-! ## IP and the queues -/

/-- R116: where an instruction that completes leaves IP. -/
theorem State.completed_ip (s : State) (i : Instr) (h : opcodeOf i ∉ [5, 6, 99]) :
    (s.completed i).ip = s.ip + 1 + i.nparams := by
  cases i with
  | jumpIfTrue _ _ _ | jumpIfFalse _ _ _ | halt _ _ _ => simp [opcodeOf] at h
  | _ =>
    simp [State.completed, Instr.nparams]
    omega

/-- Settles O29: a step that does not fault has completed its instruction. -/
theorem completedStepMovesIpPastTheInstruction : Obligations.CompletedStepMovesIpPastTheInstruction := by
  unfold Obligations.CompletedStepMovesIpPastTheInstruction
  intro s t i hv hr hd h hnf
  obtain ⟨i', hd', -, rfl⟩ | ⟨f, u, -, rfl, -⟩ := coreStep_cases hr hv h
  · obtain rfl : i = i' := Except.ok.inj (hd.symm.trans hd')
    refine ⟨?_, ?_, ?_, s.completed_ip i⟩
    · rintro m1 m2 m3 rfl
      exact ⟨fun ht => by simp [State.completed, ht], fun ht => by simp [State.completed, ht]⟩
    · rintro m1 m2 m3 rfl
      exact ⟨fun ht => by simp [State.completed, ht], fun ht => by simp [State.completed, ht]⟩
    · rintro m1 m2 m3 rfl
      rfl
  · exact absurd rfl hnf

/-- R160: a step of the core pops IQ in `read_input` alone. -/
theorem coreStep_iq {s t : State} (hv : s.cfg.Valid) (h : coreStep s = .next t) :
    t.iq = s.iq ∨ t.iq = s.iq.tail ∧ ∃ m1 m2 m3, decodeAtIp s = .ok (.readInput m1 m2 m3) := by
  obtain rfl | ⟨-, i, hd, -, rfl⟩ | ⟨-, f, u, i, -, rfl, hp, hd⟩ := coreStep_outcomes hv h
  · exact .inl rfl
  · by_cases hop : opcodeOf i = 3
    · obtain ⟨m1, m2, m3, rfl⟩ := eq_of_opcode hop rfl
      exact .inr ⟨rfl, m1, m2, m3, hd⟩
    · obtain ⟨-, -, hiq, -, -⟩ := s.completed_frame i
      exact .inl (hiq hop)
  · obtain ⟨-, hiq | ⟨hop, hiq, -⟩⟩ := hp.frame
    · exact .inl hiq
    · obtain ⟨m1, m2, m3, rfl⟩ := eq_of_opcode hop rfl
      exact .inr ⟨hiq, m1, m2, m3, hd rfl⟩

/-- R161: a step of the core appends to OQ in `write_output` alone, on a Running core. -/
theorem coreStep_oq {s t : State} (hv : s.cfg.Valid) (h : coreStep s = .next t) :
    t.oq = s.oq ∨ s.Running ∧ ∃ m1 m2 m3, decodeAtIp s = .ok (.writeOutput m1 m2 m3) ∧
      t.oq = s.oq ++ [s.operand m1 1] := by
  obtain rfl | ⟨hr, i, hd, -, rfl⟩ | ⟨-, f, u, i, -, rfl, hp, -⟩ := coreStep_outcomes hv h
  · exact .inl rfl
  · by_cases hop : opcodeOf i = 4
    · obtain ⟨m1, m2, m3, rfl⟩ := eq_of_opcode hop rfl
      exact .inr ⟨hr, m1, m2, m3, hd, rfl⟩
    · obtain ⟨-, -, -, hoq, -⟩ := s.completed_frame i
      exact .inl (hoq hop)
  · exact .inl (by rw [hp.eq_with]; rfl)

/-- Settles O59, one queue by each lemma. -/
theorem coreTakesTheOldestInputAndAppendsOutputs : Obligations.CoreTakesTheOldestInputAndAppendsOutputs := by
  unfold Obligations.CoreTakesTheOldestInputAndAppendsOutputs
  refine fun s t hv h => ⟨?_, (coreStep_oq hv h).imp id fun ⟨_, hout⟩ => hout⟩
  obtain hiq | ⟨hiq, hread⟩ := coreStep_iq hv h
  · exact .inl hiq
  · rw [hiq]
    exact (tail_eq_or_cons s.iq).imp id fun ⟨x, hx⟩ => ⟨x, hx, hread⟩

end Sys2Proof.Machine
end

section
/-!
SUPPORT. The frames of the ten instructions (spec/40_execution.md R118): what `exec` leaves unchanged, the one address that a
store writes, and that the next fetch sees it (spec/20_memory.md section 5).
-/

namespace Sys2Proof.Machine

/-- Everything an instruction can do, in any STATE: nothing, or it completes with none of its checks failing, or it
faults. -/
theorem exec_outcomes {i : Instr} {s t : State} (hv : s.cfg.Valid) (h : exec i s = .next t) :
    ¬s.Running ∧ t = s ∨
    s.Running ∧ firstFailure (s.bodyChecks i) = none ∧ t = s.completed i ∨
    ∃ f u, t = faultEntry s.ip (s.mem.read s.ip) f u ∧ s.Partial i u := by
  by_cases hr : s.Running
  · obtain ⟨hcompletes, hfaults⟩ := exec_does i hr hv
    cases hf : firstFailure (s.incrementCheck 0 :: s.bodyChecks i) with
    | none =>
      rw [hcompletes hf] at h
      exact .inr (.inl ⟨hr, (State.isWord_of_increment hf).2, (Host.Outcome.next.inj h).symm⟩)
    | some f =>
      obtain ⟨u, hu, hp⟩ := hfaults f hf
      rw [hu] at h
      exact .inr (.inr ⟨f, u, (Host.Outcome.next.inj h).symm, hp⟩)
  · rw [exec_of_not_running i hr] at h
    exact .inl ⟨hr, (Host.Outcome.next.inj h).symm⟩

/-- An instruction that runs and does not fault completes. -/
theorem exec_completed {i : Instr} {s t : State} (hr : s.Running) (hv : s.cfg.Valid) (h : exec i s = .next t)
    (hnf : t.status.state ≠ .faulted) : t = s.completed i := by
  obtain ⟨hn, -⟩ | ⟨-, -, ht⟩ | ⟨f, u, rfl, -⟩ := exec_outcomes hv h
  · exact absurd hr hn
  · exact ht
  · exact absurd rfl hnf

/-! ## Relative loads after `adjust_relative_base` -/

/-- Settles O23: a relative load in a state whose RB is the one written. -/
theorem relativeLoadIsPositionLoadAtRb : Obligations.RelativeLoadIsPositionLoadAtRb := by
  unfold Obligations.RelativeLoadIsPositionLoadAtRb
  refine ⟨fun s b k n hb hk => ?_, fun m1 m2 m3 s t k n hv hr h hnf hk => ?_⟩
  · rw [forceRb, if_pos hb]
    exact ⟨rfl, load_relative_eq_position (s := s.setRb b) n hk⟩
  · obtain rfl := exec_completed hr hv h hnf
    exact ⟨rfl, load_relative_eq_position n (by rwa [State.completed_cfg])⟩

/-! ## The one address a store writes -/

/-- R61: where parameter `k` can be stored through, `resolve_addr` gives its address. -/
theorem resolveAddr_of_canStore {s : State} {m : Mode} {k : Fin 4} (h : s.CanStore m k.val) :
    resolveAddr s.cfg s.rb (s.param k.val) m k = .ok (s.operandAddr m k.val) := by
  obtain ⟨hm, haddr, -⟩ := h
  rw [resolveAddr_eq s s m k rfl rfl hm, State.address_passes haddr]

/-- Between `s` and `t` memory is written at most at the address that `resolve_addr` gives for parameter `k`. -/
def State.StoresThrough (s t : State) (m : Mode) (k : Fin 4) : Prop :=
  (∀ a, resolveAddr s.cfg s.rb (s.param k.val) m k = .ok a → ∀ x, x ≠ a → t.mem.read x = s.mem.read x) ∧
    (∀ f, resolveAddr s.cfg s.rb (s.param k.val) m k = .error f → t.mem = s.mem) ∧
    (m = .immediate ∨ t.status.state = .faulted → t.mem = s.mem)

theorem State.storesThrough_of_mem_eq {s t : State} (h : t.mem = s.mem) (m : Mode) (k : Fin 4) :
    s.StoresThrough t m k :=
  ⟨fun _ _ _ _ => by rw [h], fun _ _ => h, fun _ => h⟩

theorem State.storesThrough_of_write {s t : State} {m : Mode} {k : Fin 4} {v : Int} (hs : s.CanStore m k.val)
    (hnf : t.status.state ≠ .faulted) (ht : t.mem = s.mem.write (s.operandAddr m k.val) v) : s.StoresThrough t m k := by
  have haddr := resolveAddr_of_canStore hs
  refine ⟨fun a ha x hx => ?_, fun f hf => ?_, fun hmf => ?_⟩
  · obtain rfl := Except.ok.inj (haddr.symm.trans ha)
    rw [ht, Memory.read_write_other _ _ hx]
  · cases haddr.symm.trans hf
  · exact absurd hmf (not_or.2 ⟨hs.1, hnf⟩)

/-! ## The frames -/

/-- Settles O46: the four instructions on a core that is not Running, where they complete, and where they fault. -/
theorem frameOfTheFourArithmeticInstructions : Obligations.FrameOfTheFourArithmeticInstructions := by
  unfold Obligations.FrameOfTheFourArithmeticInstructions
  intro b m1 m2 m3 s t hv h
  obtain ⟨-, rfl⟩ | ⟨hr, hc, rfl⟩ | ⟨f, u, rfl, ⟨j, -, -, rfl⟩ | ⟨hop, -⟩⟩ := exec_outcomes hv h
  · exact ⟨rfl, rfl, rfl, rfl, rfl, rfl, fun _ => ⟨rfl, rfl⟩, State.storesThrough_of_mem_eq rfl m3 3⟩
  · have hnf := State.not_faulted_completed hr (b.instr m1 m2 m3)
    obtain ⟨-, -, hstore⟩ := Binary.of_bodyChecks hv hc
    rw [Binary.completed_instr] at hnf ⊢
    exact ⟨rfl, rfl, rfl, rfl, rfl, rfl, fun _ => ⟨rfl, rfl⟩, State.storesThrough_of_write (k := 3) hstore hnf rfl⟩
  · refine ⟨rfl, rfl, rfl, rfl, rfl, rfl, fun hnf => absurd rfl hnf, State.storesThrough_of_mem_eq ?_ m3 3⟩
    rfl
  · cases b <;> cases hop

/-- Settles O47, as O46; a fault after the pop has lost the front of IQ. -/
theorem frameOfReadInput : Obligations.FrameOfReadInput := by
  unfold Obligations.FrameOfReadInput
  intro m1 m2 m3 s t hv h
  obtain ⟨-, rfl⟩ | ⟨hr, hc, rfl⟩ | ⟨f, u, rfl, hp⟩ := exec_outcomes hv h
  · exact ⟨rfl, rfl, rfl, .inl rfl, rfl, rfl, fun _ => ⟨rfl, rfl⟩, State.storesThrough_of_mem_eq rfl m1 1⟩
  · have hnf := State.not_faulted_completed hr (.readInput m1 m2 m3)
    obtain ⟨-, hstore⟩ := State.of_readInput_checks hc
    exact ⟨rfl, rfl, rfl, .inr rfl, rfl, rfl, fun _ => ⟨rfl, rfl⟩,
      State.storesThrough_of_write (k := 1) hstore hnf rfl⟩
  · obtain ⟨-, hiq⟩ := hp.frame
    have hkept := hp.eq_with
    refine ⟨?_, ?_, ?_, hiq.imp id fun ⟨_, hiq, _⟩ => hiq, ?_, ?_, fun hnf => absurd rfl hnf,
      State.storesThrough_of_mem_eq ?_ m1 1⟩ <;> rw [hkept] <;> rfl

/-- R118: the opcodes of the five instructions that store nothing. -/
theorem opcodeOf_of_stores_nothing {m1 m2 m3 : Mode} {i : Instr}
    (h : i ∈ [Instr.writeOutput m1 m2 m3, .jumpIfTrue m1 m2 m3, .jumpIfFalse m1 m2 m3, .adjustRelativeBase m1 m2 m3,
      .halt m1 m2 m3]) :
    opcodeOf i ∉ [1, 2, 3, 7, 8] ∧ opcodeOf i ≠ 3 ∧ (i ≠ .writeOutput m1 m2 m3 → opcodeOf i ≠ 4) ∧
      (i ≠ .adjustRelativeBase m1 m2 m3 → opcodeOf i ≠ 9) ∧ (i ≠ .halt m1 m2 m3 → opcodeOf i ≠ 99) := by
  simp only [List.mem_cons, List.not_mem_nil, or_false] at h
  obtain rfl | rfl | rfl | rfl | rfl := h <;> simp [opcodeOf]

/-- Settles O48, by opcode: what an instruction that completes and one that faults have kept. -/
theorem frameOfTheInstructionsThatStoreNothing : Obligations.FrameOfTheInstructionsThatStoreNothing := by
  unfold Obligations.FrameOfTheInstructionsThatStoreNothing
  intro m1 m2 m3 s t i hv hi h
  obtain ⟨hnostore, hnopop, hout, hbase, hhalt⟩ := opcodeOf_of_stores_nothing hi
  obtain ⟨-, rfl⟩ | ⟨hr, -, rfl⟩ | ⟨f, u, rfl, hp⟩ := exec_outcomes hv h
  · exact ⟨rfl, rfl, fun _ => rfl, rfl, rfl, rfl, fun _ => rfl, fun _ => rfl, fun _ => ⟨rfl, rfl, fun _ => rfl⟩⟩
  · obtain ⟨hrb, hmem, hiq, hoq, hstatus⟩ := s.completed_frame i
    obtain ⟨-, hcode, hfr⟩ := State.sameFault_completed hr i
    obtain ⟨hexit, hbusy⟩ : (s.completed i).status.lastExit = s.status.lastExit ∧
        (s.completed i).status.busy = s.status.busy := by
      obtain hs | hs := s.completed_status i <;> rw [hs] <;> exact ⟨rfl, rfl⟩
    exact ⟨s.completed_cfg i, hmem hnostore, fun a => by rw [hmem hnostore], hiq hnopop, hexit, hbusy,
      fun hne => hoq (hout hne), fun hne => hrb (hbase hne), fun _ => ⟨hfr, hcode, fun hne => hstatus (hhalt hne)⟩⟩
  · obtain ⟨-, hiq⟩ := hp.frame
    have hkept := hp.eq_with
    refine ⟨?_, ?_, fun a => ?_, hiq.resolve_right fun hpop => hnopop hpop.1, ?_, ?_, fun _ => ?_, fun _ => ?_,
      fun hnf => absurd rfl hnf⟩ <;> rw [hkept] <;> rfl

/-! ## The next fetch -/

/-- R53, R73: a store leaves its value at its address, and a fetch there reads it. -/
theorem fetch_sees_write {s t : State} (hwf : s.mem.wf) {a v : Int} (ht : t.mem = s.mem.write a v)
    (hcfg : t.cfg = s.cfg) :
    t.mem.read a = v ∧ (a = t.ip → decodeAtIp t = decode s.cfg.highDigitPolicy v) := by
  have hread : t.mem.read a = v := by rw [ht, Memory.read_write_same hwf]
  exact ⟨hread, fun hip => by rw [decodeAtIp, ← hip, hread, hcfg]⟩

/-- Settles O49: an instruction that completes has made its store and left IP past itself. -/
theorem nextFetchSeesTheStore : Obligations.NextFetchSeesTheStore := by
  unfold Obligations.NextFetchSeesTheStore
  refine ⟨fun b m1 m2 m3 s t hI hr h hnf => ?_, fun m1 m2 m3 s t x rest hI hr hq h hnf => ?_⟩
  · obtain rfl := exec_completed hr hI.cfgValid h hnf
    rw [Binary.completed_instr]
    exact fetch_sees_write hI.memWf rfl rfl
  · obtain rfl := exec_completed hr hI.cfgValid h hnf
    refine fetch_sees_write hI.memWf ?_ rfl
    rw [State.completed, hq]
    rfl

end Sys2Proof.Machine
end

section
/-!
SUPPORT. Where each instruction completes, and what it then leaves (spec/41_arithmetic.md, 42_io.md, 43_control.md,
44_relative_base.md): the conditions are on the state before the step, and the sub-steps complete one after the other.
-/

namespace Sys2Proof.Machine

/-! ## Stores and results -/

/-- R61, R65 to R67: a step that has reached the store of a parameter that can be stored through. -/
theorem endOfStep_store_of_canStore {s u : State} {m : Mode} {k : Fin 4} (h : s.CanStore m k.val) (a w v : Int)
    (hc : u.cfg = s.cfg) (hr : u.rb = s.rb) (hm : u.mem = s.mem) :
    endOfStep a w (store (s.param k.val) v m k u) = u.setMem (s.mem.write (s.operandAddr m k.val) v) := by
  rw [(store_does s u m k v hc hr hm).1 (State.store_passes h)]
  rfl

theorem aluResult_of_not_isWord {u : State} {f : AluOp} {a b : Int} (h : ¬u.cfg.IsWord (aluExact f a b)) :
    aluResult f a b u = .raise ⟨.overflowFault, 0, 3⟩ u := by
  simp only [aluResult, alu, chk_of_not_isWord h]

/-! ## The four arithmetic instructions -/

section
variable {s : State} {m1 m2 : Mode} (b : Binary) (hr : s.Running) (h : s.Fits 4) (h1 : s.CanLoad m1 1)
  (h2 : s.CanLoad m2 2)
include hr h h1 h2

/-- R141 to R144: a result that is a Word is stored. -/
theorem Binary.exec_completes {m3 : Mode} (hw : s.cfg.IsWord (b.result (s.operand m1 1) (s.operand m2 2)))
    (hs : s.CanStore m3 3) :
    exec (b.instr m1 m2 m3) s =
      .next ((s.advanced 4).setMem (s.mem.write (s.operandAddr m3 3) (b.result (s.operand m1 1) (s.operand m2 2)))) := by
  rw [← b.aluExact_aluOp] at hw ⊢
  rw [b.exec_instr, runBody_of_fits hr h (by decide), aluBody_reaches_result h h1 h2,
    aluResult_of_isWord (u := s.advanced 4) hw, SubStep.ok_bind]
  exact congrArg _ (endOfStep_store_of_canStore (k := 3) hs _ _ _ rfl rfl rfl)

/-- R145: a result that is no Word raises OverflowFault, before the store. -/
theorem Binary.exec_overflows (m3 : Mode) (hw : ¬s.cfg.IsWord (b.result (s.operand m1 1) (s.operand m2 2))) :
    exec (b.instr m1 m2 m3) s =
      .next ((s.advanced 4).faultedBy .overflowFault ⟨s.ip, s.mem.read s.ip, 0, 3⟩) := by
  rw [← b.aluExact_aluOp] at hw
  rw [b.exec_instr, runBody_of_fits hr h (by decide), aluBody_reaches_result h h1 h2,
    aluResult_of_not_isWord (u := s.advanced 4) hw]
  rfl

end

/-- Settles O32: `add` is the `Binary` whose result is the sum. -/
theorem addCompletes : Obligations.AddCompletes := by
  unfold Obligations.AddCompletes
  exact fun _ _ _ _ hr h h1 h2 hw hs => Binary.add.exec_completes hr h h1 h2 hw hs

/-- Settles O33: `multiply` is the `Binary` whose result is the product. -/
theorem multiplyCompletes : Obligations.MultiplyCompletes := by
  unfold Obligations.MultiplyCompletes
  exact fun _ _ _ _ hr h h1 h2 hw hs => Binary.multiply.exec_completes hr h h1 h2 hw hs

/-- Settles O34: the result of a comparison needs no check. -/
theorem lessThanCompletes : Obligations.LessThanCompletes := by
  unfold Obligations.LessThanCompletes
  exact fun _ _ _ _ hv hr h h1 h2 hs => Binary.lessThan.exec_completes hr h h1 h2 (isWord_bit hv _) hs

/-- Settles O35, as O34. -/
theorem equalsCompletes : Obligations.EqualsCompletes := by
  unfold Obligations.EqualsCompletes
  exact fun _ _ _ _ hv hr h h1 h2 hs => Binary.equals.exec_completes hr h h1 h2 (isWord_bit hv _) hs

/-! ## The instructions of one parameter -/

/-- Settles O36: the body reaches its store with the front of IQ popped. -/
theorem readInputCompletes : Obligations.ReadInputCompletes := by
  unfold Obligations.ReadInputCompletes
  intro m1 m2 m3 s x rest hr h hq hs
  rw [exec_readInput, runBody_of_fits hr h (by decide), readInputBody_reaches_store h hq]
  exact congrArg _ (endOfStep_store_of_canStore (k := 1) hs _ _ _ rfl rfl rfl)

/-- R113: the source parameter of an instruction that has one. -/
theorem fetchSource_one {s : State} (h : s.Fits 2) {m1 : Mode} (h1 : s.CanLoad m1 1) :
    fetchSource m1 1 (s.advanced 1) = .ok (s.operand m1 1) (s.advanced 2) :=
  fetchSource_of_canLoad h 1 (by decide) h1

theorem exec_writeOutput (m1 m2 m3 : Mode) (s : State) :
    exec (.writeOutput m1 m2 m3) s = runBody (writeOutputBody m1) s := rfl

theorem pushOutput_of_room {s : State} (v : Int) (h : ∀ cap, s.cfg.oqCapacity = some cap → s.oq.length < cap) :
    pushOutput v s = .ok () (s.setOq (s.oq ++ [v])) :=
  if_pos (hasRoom_iff.2 h)

/-- Settles O37: the body reaches its push with the operand loaded. -/
theorem writeOutputCompletes : Obligations.WriteOutputCompletes := by
  unfold Obligations.WriteOutputCompletes
  intro m1 m2 m3 s hr h h1 hroom
  rw [exec_writeOutput, runBody_of_fits hr h (by decide), writeOutputBody, fetchSource_one h h1, SubStep.ok_bind,
    pushOutput_of_room (s := s.advanced 2) _ hroom]
  rfl

theorem exec_adjustRelativeBase (m1 m2 m3 : Mode) (s : State) :
    exec (.adjustRelativeBase m1 m2 m3) s = runBody (adjustRelativeBaseBody m1) s := rfl

/-- R200: the body reaches its result with the operand loaded under the old RB. -/
theorem adjustRelativeBaseBody_reaches_result {s : State} (h : s.Fits 2) {m1 : Mode} (h1 : s.CanLoad m1 1) :
    adjustRelativeBaseBody m1 (s.advanced 1) =
      (aluResult .add s.rb (s.operand m1 1) (s.advanced 2)).bind fun rb t => .ok () (t.setRb rb) := by
  rw [adjustRelativeBaseBody, fetchSource_one h h1, SubStep.ok_bind, State.advanced_rb]

/-- Settles O40: the sum is a Word. -/
theorem adjustRelativeBaseCompletes : Obligations.AdjustRelativeBaseCompletes := by
  unfold Obligations.AdjustRelativeBaseCompletes
  intro m1 m2 m3 s hr h h1 hw
  rw [exec_adjustRelativeBase, runBody_of_fits hr h (by decide), adjustRelativeBaseBody_reaches_result h h1,
    aluResult_of_isWord (f := .add) (u := s.advanced 2) hw]
  rfl

/-- Settles O43: the result of each instruction is checked before anything is written. -/
theorem resultOutsideTheWordRangeFaults : Obligations.ResultOutsideTheWordRangeFaults := by
  unfold Obligations.ResultOutsideTheWordRangeFaults
  refine ⟨fun b _ _ m3 _ hr h h1 h2 hw => b.exec_overflows hr h h1 h2 m3 hw, fun m1 m2 m3 s hr h h1 hw => ?_⟩
  rw [exec_adjustRelativeBase, runBody_of_fits hr h (by decide), adjustRelativeBaseBody_reaches_result h h1,
    aluResult_of_not_isWord (f := .add) (u := s.advanced 2) hw]
  rfl

/-- Settles O41: the body of `halt` has one sub-step, which completes. -/
theorem haltCompletes : Obligations.HaltCompletes := by
  unfold Obligations.HaltCompletes
  intro m1 m2 m3 s hv hr hw
  obtain ⟨-, -, hneg⟩ := hv
  exact ⟨runBody_of_fits hr (State.fits_one hw) le_rfl haltBody, hneg⟩

/-! ## The jumps -/

section
variable {s : State} {m1 m2 : Mode} {sense : Int} (hv : s.cfg.Valid) (hr : s.Running) (h : s.Fits 3)
  (h1 : s.CanLoad m1 1) (h2 : s.CanLoad m2 2)
include hv hr h h1 h2

/-- R182: a taken jump to a target that is not negative. -/
theorem runBody_jumpBody_taken (ht : aluExact .nz (s.operand m1 1) 0 = sense) (h0 : 0 ≤ s.operand m2 2) :
    runBody (jumpBody sense m1 m2) s = .next (s.setIp (s.operand m2 2)) := by
  rw [runBody_of_fits hr h (by decide), jumpBody_reaches_decision hv h h1 h2, if_pos ht, jumpTo, if_neg (not_lt.2 h0)]
  rfl

/-- R180, R181: a jump that is not taken does not look at its target. -/
theorem runBody_jumpBody_not_taken (ht : aluExact .nz (s.operand m1 1) 0 ≠ sense) :
    runBody (jumpBody sense m1 m2) s = .next (s.advanced 3) := by
  rw [runBody_of_fits hr h (by decide), jumpBody_reaches_decision hv h h1 h2, if_neg ht]
  rfl

end

/-- Settles O38: the jump is taken where the alu's NZ is 1. -/
theorem jumpIfTrueCompletes : Obligations.JumpIfTrueCompletes := by
  unfold Obligations.JumpIfTrueCompletes
  intro m1 m2 m3 s hv hr h h1 h2
  have htaken := aluExact_nz_eq_one (s.operand m1 1) 0
  rw [exec_jumpIfTrue]
  exact ⟨fun ht h0 => runBody_jumpBody_taken hv hr h h1 h2 (htaken.2 ht) h0,
    fun ht => runBody_jumpBody_not_taken hv hr h h1 h2 fun hnz => htaken.1 hnz ht⟩

/-- Settles O39: the jump is taken where the alu's NZ is 0. -/
theorem jumpIfFalseCompletes : Obligations.JumpIfFalseCompletes := by
  unfold Obligations.JumpIfFalseCompletes
  intro m1 m2 m3 s hv hr h h1 h2
  have htaken := aluExact_nz_eq_zero (s.operand m1 1) 0
  rw [exec_jumpIfFalse]
  exact ⟨fun ht h0 => runBody_jumpBody_taken hv hr h h1 h2 (htaken.2 ht) h0,
    fun ht => runBody_jumpBody_not_taken hv hr h h1 h2 (mt htaken.1 ht)⟩

/-- Settles O45: a taken jump of either kind is the body with the sense of its test. -/
theorem takenJumpGoesToItsTargetOrFaults : Obligations.TakenJumpGoesToItsTargetOrFaults := by
  unfold Obligations.TakenJumpGoesToItsTargetOrFaults
  intro m1 m2 m3 s hv hr h h1 h2 h0 i hi
  obtain ⟨sense, ht, hexec⟩ : ∃ sense, aluExact .nz (s.operand m1 1) 0 = sense ∧
      exec i s = runBody (jumpBody sense m1 m2) s := by
    obtain ⟨rfl, ht⟩ | ⟨rfl, ht⟩ := hi
    · exact ⟨1, (aluExact_nz_eq_one _ 0).2 ht, rfl⟩
    · exact ⟨0, (aluExact_nz_eq_zero _ 0).2 ht, rfl⟩
  rw [hexec]
  refine ⟨runBody_jumpBody_taken hv hr h h1 h2 ht, fun hneg =>
    ⟨_, runBody_jumpBody_negative hr hv h h1 h2 ht hneg, fun hdone => ?_, rfl⟩⟩
  have hip : s.ip + 3 < 0 := hdone
  omega

end Sys2Proof.Machine
end

section
/-!
SUPPORT. Where the run commands return and what they return (spec/48_run_protocol.md R217 to R221): the loop decision of
each, and the first of the states of a run that has one.
-/

namespace Sys2Proof.Machine

/-! ## The loop decisions -/

/-- R218: the guard of `run_while_input`. -/
theorem atReadInput_iff {s : State} :
    atReadInput s = true ↔ ∃ m1 m2 m3, decodeAtIp s = .ok (.readInput m1 m2 m3) := by
  unfold atReadInput
  split
  · next i hd =>
    simp only [hd, beq_iff_eq, Except.ok.injEq]
    exact ⟨fun hop => eq_of_opcode hop rfl, fun ⟨_, _, _, hi⟩ => hi ▸ rfl⟩
  · next e hd => simp [hd]

/-- R217, R226: `run_to_end` exits on a fault, and then where the core is done. -/
theorem loopDecision_runToEnd_eq_some {s : State} {r : Reply} :
    loopDecision .runToEnd s = some r ↔
      s.status.state = .faulted ∧ r = .fault s.status.faultCode ∨
      s.status.state ≠ .faulted ∧ s.ip < 0 ∧ r = .halted := by
  simp only [loopDecision]
  split
  · next hf => simp [hf, eq_comm (a := r)]
  next hf =>
  split <;> simp_all [eq_comm (a := r)]

theorem loopDecision_runToEnd_eq_none {s : State} :
    loopDecision .runToEnd s = none ↔ s.status.state ≠ .faulted ∧ 0 ≤ s.ip := by
  simp only [loopDecision]
  split
  · next hf => simp [hf]
  next hf =>
  split <;> simp_all

/-- R218, R226: `run_while_input` exits on a fault, where the core is done, and before a `read_input` with IQ empty. -/
theorem loopDecision_runWhileInput_eq_some {s : State} {r : Reply} :
    loopDecision .runWhileInput s = some r ↔
      s.status.state = .faulted ∧ r = .fault s.status.faultCode ∨
      s.status.state ≠ .faulted ∧ s.ip < 0 ∧ r = .halted ∨
      s.status.state ≠ .faulted ∧ 0 ≤ s.ip ∧
        (s.iq = [] ∧ ∃ m1 m2 m3, decodeAtIp s = .ok (.readInput m1 m2 m3)) ∧ r = .needInput := by
  rw [← atReadInput_iff]
  simp only [loopDecision]
  split
  · next hf => simp [hf, eq_comm (a := r)]
  next hf =>
  split
  · next hdone => simp [hf, hdone, eq_comm (a := r)]
  next hdone =>
  split <;> simp_all [eq_comm (a := r)]

theorem loopDecision_runWhileInput_eq_none {s : State} :
    loopDecision .runWhileInput s = none ↔ s.status.state ≠ .faulted ∧ 0 ≤ s.ip ∧
      ¬(s.iq = [] ∧ ∃ m1 m2 m3, decodeAtIp s = .ok (.readInput m1 m2 m3)) := by
  rw [← atReadInput_iff]
  simp only [loopDecision]
  split
  · next hf => simp [hf]
  next hf =>
  split
  · next hdone => simp [hdone]
  next hdone =>
  split <;> simp_all

/-- R219, R226: `run_until_output` exits on a fault, with the front of OQ, and where the core is done. -/
theorem loopDecision_runUntilOutput_eq_some {s : State} {r : Reply} :
    loopDecision .runUntilOutput s = some r ↔
      s.status.state = .faulted ∧ r = .fault s.status.faultCode ∨
      s.status.state ≠ .faulted ∧ (∃ v rest, s.oq = v :: rest ∧ r = .output v) ∨
      s.status.state ≠ .faulted ∧ s.oq = [] ∧ s.ip < 0 ∧ r = .noOutput := by
  simp only [loopDecision]
  split
  · next hf => simp [hf, eq_comm (a := r)]
  next hf =>
  split
  · next v rest hq => simp [hf, hq, eq_comm (a := r)]
  next hq =>
  split <;> simp_all [eq_comm (a := r)]

theorem loopDecision_runUntilOutput_eq_none {s : State} :
    loopDecision .runUntilOutput s = none ↔ s.status.state ≠ .faulted ∧ 0 ≤ s.ip ∧ s.oq = [] := by
  simp only [loopDecision]
  split
  · next hf => simp [hf]
  next hf =>
  split
  · next v rest hq => simp [hq]
  next hq =>
  split <;> simp_all

/-- R217 to R219: a run command does not go on from a faulted state. -/
theorem loopDecision_of_faulted {c : Command} (hc : c ≠ .step) {s : State} (hf : s.status.state = .faulted) :
    loopDecision c s = some (.fault s.status.faultCode) := by
  cases c with
  | step => exact absurd rfl hc
  | runToEnd => exact loopDecision_runToEnd_eq_some.2 (.inl ⟨hf, rfl⟩)
  | runWhileInput => exact loopDecision_runWhileInput_eq_some.2 (.inl ⟨hf, rfl⟩)
  | runUntilOutput => exact loopDecision_runUntilOutput_eq_some.2 (.inl ⟨hf, rfl⟩)

/-! ## Where a run command returns -/

/-- R217 to R219, R221: a run command returns by the loop decision of the first state of its run that has one. -/
theorem returns_iff {c : Command} (hc : c ≠ .step) {s t : State} {r : Reply} :
    Returns c s r t ↔ s.Idle ∧ ∃ k, (∀ j < k, loopDecision c ((accept c s).afterSteps j) = none) ∧
      loopDecision c ((accept c s).afterSteps k) = some r ∧ t = finish r ((accept c s).afterSteps k) := by
  refine and_congr_right fun _ => ⟨fun ⟨n, hn⟩ => ?_, fun ⟨k, hk⟩ => ⟨k + 1, ?_⟩⟩
  · obtain ⟨k, -, hk⟩ := (runTurns_eq_some hc).1 hn
    exact ⟨k, hk⟩
  · exact (runTurns_eq_some hc).2 ⟨k, Nat.lt_succ_self k, hk⟩

theorem returns_at_once {c : Command} (hc : c ≠ .step) {s : State} {r : Reply} (hi : s.Idle)
    (hd : loopDecision c (accept c s) = some r) : Returns c s r (finish r (accept c s)) :=
  (returns_iff hc).2 ⟨hi, 0, fun j hj => absurd hj (Nat.not_lt_zero j), hd, rfl⟩

/-- R217, R218: a reply without an output writes LAST_EXIT alone, where the command returns at once. -/
theorem finish_accept_of_idle {c : Command} {s : State} {r : Reply} (hi : s.Idle) (hr : ∀ v, r ≠ .output v) :
    finish r (accept c s) = { s with status := { s.status with lastExit := exitOf r } } := by
  rw [← release_accept_of_idle hi c]
  cases r with
  | output v => exact absurd rfl (hr v)
  | running | halted | needInput | noOutput | fault _ => rfl

/-- R221: a run command hangs exactly where no state of its run has a loop decision. -/
theorem hangs_iff {c : Command} (hc : c ≠ .step) {s : State} (hi : s.Idle) :
    Hangs c s ↔ ∀ n, loopDecision c ((accept c s).afterSteps n) = none := by
  refine ⟨fun ⟨_, hnever⟩ => ?_, fun hnone => ⟨hi, fun n => ?_⟩⟩
  · by_contra hsome
    have hex : ∃ n, loopDecision c ((accept c s).afterSteps n) ≠ none := not_forall.1 hsome
    obtain ⟨r, hr⟩ := Option.ne_none_iff_exists'.1 (Nat.find_spec hex)
    have hfirst (j : Nat) (hj : j < Nat.find hex) : loopDecision c ((accept c s).afterSteps j) = none :=
      not_not.1 (Nat.find_min hex hj)
    have hret := (runTurns_eq_some hc).2 ⟨Nat.find hex, Nat.lt_succ_self _, hfirst, hr, rfl⟩
    rw [hnever] at hret
    cases hret
  · refine Option.eq_none_iff_forall_not_mem.2 fun ⟨r, t⟩ hret => ?_
    obtain ⟨k, -, -, hr, -⟩ := (runTurns_eq_some hc).1 hret
    cases (hnone k).symm.trans hr

/-- R221: a command that returns does not hang. -/
theorem Returns.not_hangs {c : Command} {s t : State} {r : Reply} (h : Returns c s r t) : ¬Hangs c s := by
  rintro ⟨-, hnever⟩
  obtain ⟨-, n, hn⟩ := h
  rw [hnever] at hn
  cases hn

/-- Settles O54: `step()` by its one step, each run command by the states that have no loop decision. -/
theorem commandReturnsOnceOrHangs : Obligations.CommandReturnsOnceOrHangs := by
  unfold Obligations.CommandReturnsOnceOrHangs
  refine ⟨fun s hi => ?_, fun s hi => ?_, fun s hi => ?_, fun s hi => ?_, fun _ _ _ _ _ _ h h' => h.unique h'⟩
  · obtain ⟨u, hu⟩ := coreStep_next (accept .step s)
    have hret := returns_step_of_coreStep hi hu
    exact ⟨⟨_, _, hret⟩, hret.not_hangs⟩
  · simp only [hangs_iff (by decide : Command.runToEnd ≠ .step) hi, loopDecision_runToEnd_eq_none]
  · simp only [hangs_iff (by decide : Command.runWhileInput ≠ .step) hi, loopDecision_runWhileInput_eq_none]
  · simp only [hangs_iff (by decide : Command.runUntilOutput ≠ .step) hi, loopDecision_runUntilOutput_eq_none]

/-! ## What the commands return -/

/-- Settles O55: `step()` as on every stopped core, a run command at once. -/
theorem faultedCoreReReportsItsFault : Obligations.FaultedCoreReReportsItsFault := by
  unfold Obligations.FaultedCoreReReportsItsFault
  intro c s hi hf
  by_cases hc : c = .step
  · subst hc
    exact ((stepOfAStoppedCoreChangesNothing s).2 hf).2 hi
  · have hret := returns_at_once hc hi (loopDecision_of_faulted (s := accept c s) hc hf)
    rwa [finish_accept_of_idle hi (by simp)] at hret

/-- Settles O51: the loop decision that `run_to_end` returned by. -/
theorem runToEndReturnsHaltedOrFaulted : Obligations.RunToEndReturnsHaltedOrFaulted := by
  unfold Obligations.RunToEndReturnsHaltedOrFaulted
  have hc : Command.runToEnd ≠ .step := by decide
  refine ⟨fun s t r h => ?_, fun s hi hs hip => ?_⟩
  · obtain ⟨-, k, -, hd, rfl⟩ := (returns_iff hc).1 h
    refine ⟨by rw [State.Idle, finish_status, Status.release_busy], ?_⟩
    obtain ⟨hf, rfl⟩ | ⟨-, hip, rfl⟩ := loopDecision_runToEnd_eq_some.1 hd
    · exact .inr ⟨rfl, hf, rfl⟩
    · exact .inl ⟨rfl, hip, rfl⟩
  · have hd : loopDecision .runToEnd (accept .runToEnd s) = some .halted :=
      loopDecision_runToEnd_eq_some.2 (.inr ⟨by simp [hs], hip, rfl⟩)
    have hret := returns_at_once hc hi hd
    rwa [finish_accept_of_idle hi (by simp)] at hret

end Sys2Proof.Machine
end

section
/-!
SUPPORT. What holds along the run of a run command (spec/48_run_protocol.md R218, R219): the parameters, the halt and the
faults of its steps, and what each of the three commands then returns.
-/

namespace Sys2Proof.Machine

/-! ## Along a run -/

/-- What holds at the start of a run and is kept by every step holds of each of its states. -/
theorem State.afterSteps_induction {P : State → Prop} {s : State} (h0 : P s)
    (hstep : ∀ u t, P u → coreStep u = .next t → P t) : ∀ n, P (s.afterSteps n)
  | 0 => h0
  | n + 1 => hstep _ _ (State.afterSteps_induction h0 hstep n) (State.coreStep_afterSteps n s)

theorem State.afterSteps_cfg {s : State} (hv : s.cfg.Valid) (n : Nat) : (s.afterSteps n).cfg = s.cfg :=
  State.afterSteps_induction (P := fun u => u.cfg = s.cfg) rfl
    (fun _ _ hu h => (coreStep_cfg (hu ▸ hv) h).trans hu) n

/-- R29, R183: a step halts the core with IP at the sentinel. -/
theorem coreStep_halted_ip {s t : State} (hv : s.cfg.Valid) (hs : s.status.state = .halted → s.ip < 0)
    (h : coreStep s = .next t) (ht : t.status.state = .halted) : t.ip < 0 := by
  obtain rfl | ⟨hr, i, -, -, rfl⟩ | ⟨-, f, u, i, -, rfl, -, -⟩ := coreStep_outcomes hv h
  · exact hs ht
  · by_cases hop : opcodeOf i = 99
    · obtain ⟨m1, m2, m3, rfl⟩ := eq_of_opcode hop rfl
      obtain ⟨-, -, hneg⟩ := hv
      exact hneg
    · obtain ⟨-, -, -, -, hstatus⟩ := s.completed_frame i
      rw [hstatus hop] at ht
      cases ht.symm.trans hr
  · cases ht

/-- R29: along a run from a Running core IP is negative where the core is halted. -/
theorem State.afterSteps_halted_ip {s : State} (hv : s.cfg.Valid) (hr : s.Running) (n : Nat)
    (h : (s.afterSteps n).status.state = .halted) : (s.afterSteps n).ip < 0 := by
  have hstart : s.cfg.Valid ∧ (s.status.state = .halted → s.ip < 0) := ⟨hv, fun hs => by cases hr.symm.trans hs⟩
  exact (State.afterSteps_induction (P := fun u => u.cfg.Valid ∧ (u.status.state = .halted → u.ip < 0)) hstart
    (fun u t ⟨hu, hip⟩ h => ⟨coreStep_cfg hu h ▸ hu, coreStep_halted_ip hu hip h⟩) n).2 h

/-- R244: a step that makes the core faulted with StarvationError is a `read_input` on an empty IQ. -/
theorem coreStep_starvation {s t : State} (hv : s.cfg.Valid) (hs : s.status.state ≠ .faulted)
    (h : coreStep s = .next t) (ht : t.status.state = .faulted) (hc : t.status.faultCode = some .starvationError) :
    s.iq = [] ∧ ∃ m1 m2 m3, decodeAtIp s = .ok (.readInput m1 m2 m3) := by
  obtain ⟨hstate, -, -⟩ | ⟨-, f, hf, -, hcode, -⟩ := coreStep_fault hv h
  · exact absurd (hstate.1 ht) hs
  · exact State.readInput_of_starvation hf (Option.some.inj (hcode.symm.trans hc))

/-! ## `run_while_input` -/

/-- R218: the state before the first fault of a run was not at a `read_input` with IQ empty, or the command had returned
there. -/
theorem runWhileInput_never_starves {s t : State} {r : Reply} (hv : s.cfg.Valid) (hr : s.Running)
    (h : Returns .runWhileInput s r t) : r ≠ .fault (some .starvationError) := by
  rintro rfl
  obtain ⟨-, k, hfirst, hd, -⟩ := (returns_iff (by decide)).1 h
  obtain ⟨hf, hcode⟩ | ⟨-, -, hcode⟩ | ⟨-, -, -, hcode⟩ := loopDecision_runWhileInput_eq_some.1 hd
  · cases k with
    | zero => cases hf.symm.trans hr
    | succ k =>
      obtain ⟨hnf, -, hnostarve⟩ := loopDecision_runWhileInput_eq_none.1 (hfirst k (Nat.lt_succ_self k))
      refine hnostarve (coreStep_starvation ?_ hnf (State.coreStep_afterSteps k _) hf (Reply.fault.inj hcode).symm)
      rwa [State.afterSteps_cfg (s := accept .runWhileInput s) hv]
  · cases hcode
  · cases hcode

/-- R218: `NeedInput` is returned by a Running core at a `read_input` with IQ empty. -/
theorem runWhileInput_needInput {s t : State} (hv : s.cfg.Valid) (hr : s.Running)
    (h : Returns .runWhileInput s .needInput t) :
    t.iq = [] ∧ t.Running ∧ t.status.lastExit.code = 2 ∧ ∃ m1 m2 m3, decodeAtIp t = .ok (.readInput m1 m2 m3) := by
  obtain ⟨-, k, -, hd, rfl⟩ := (returns_iff (by decide)).1 h
  obtain ⟨-, hreply⟩ | ⟨-, -, hreply⟩ | ⟨hnf, hip, ⟨hiq, hread⟩, -⟩ := loopDecision_runWhileInput_eq_some.1 hd
  · cases hreply
  · cases hreply
  · refine ⟨hiq, ?_, rfl, hread⟩
    cases hstate : ((accept .runWhileInput s).afterSteps k).status.state with
    | running => exact hstate
    | halted =>
      have hneg := State.afterSteps_halted_ip (s := accept .runWhileInput s) hv hr k hstate
      exact absurd hip (not_le.2 hneg)
    | faulted => exact absurd hstate hnf

/-- Settles O52: where the command returns in a run, and that it returns at once where it starts at such a
`read_input`. -/
theorem runWhileInputNeverStarves : Obligations.RunWhileInputNeverStarves := by
  unfold Obligations.RunWhileInputNeverStarves
  refine ⟨fun s t r hv hr h => ⟨runWhileInput_never_starves hv hr h, ?_⟩, fun s m1 m2 m3 hi hr hip hiq hread => ?_⟩
  · rintro rfl
    exact runWhileInput_needInput hv hr h
  · have hrun : s.status.state = .running := hr
    have hd : loopDecision .runWhileInput (accept .runWhileInput s) = some .needInput :=
      loopDecision_runWhileInput_eq_some.2 (.inr (.inr ⟨by simp [hrun], hip, ⟨hiq, m1, m2, m3, hread⟩, rfl⟩))
    have hret := returns_at_once (by decide) hi hd
    rwa [finish_accept_of_idle hi (by simp)] at hret

/-! ## `run_until_output` -/

/-- R219: the return of an output takes the front of OQ. -/
theorem finish_output (v : Int) (s : State) :
    finish (.output v) s = (s.setStatus (s.status.release .output)).setOq s.oq.tail := rfl

/-- R219: an output returned by a command that started with OQ empty is the operand of the `write_output` of its last
step: OQ was empty before that step, or the command had returned there. -/
theorem runUntilOutput_output {s t : State} {v : Int} (hv : s.cfg.Valid) (hq : s.oq = [])
    (h : Returns .runUntilOutput s (.output v) t) :
    ∃ (n : Nat) (u w : State) (m1 m2 m3 : Mode),
      u = (accept .runUntilOutput s).afterSteps n ∧ u.Running ∧ u.oq = [] ∧
      decodeAtIp u = .ok (.writeOutput m1 m2 m3) ∧ coreStep u = .next w ∧ w.oq = [u.operand m1 1] ∧
      Reply.output v = .output (u.operand m1 1) ∧
      t = { w with oq := [], status := { w.status with lastExit := .output, busy := none } } := by
  obtain ⟨-, k, hfirst, hd, rfl⟩ := (returns_iff (by decide)).1 h
  obtain ⟨-, hreply⟩ | ⟨-, x, rest, hout, hreply⟩ | ⟨-, -, -, hreply⟩ := loopDecision_runUntilOutput_eq_some.1 hd
  · cases hreply
  · obtain rfl := Reply.output.inj hreply
    cases k with
    | zero => cases hq.symm.trans hout
    | succ k =>
      obtain ⟨-, -, hempty⟩ := loopDecision_runUntilOutput_eq_none.1 (hfirst k (Nat.lt_succ_self k))
      have hstep := State.coreStep_afterSteps k (accept .runUntilOutput s)
      have hcfg := State.afterSteps_cfg (s := accept .runUntilOutput s) hv k
      obtain hoq | ⟨hrun, m1, m2, m3, hread, hoq⟩ := coreStep_oq (hcfg ▸ hv) hstep
      · cases hempty.symm.trans (hoq.symm.trans hout)
      · rw [hempty, List.nil_append] at hoq
        obtain ⟨rfl, rfl⟩ := List.cons.inj (hout.symm.trans hoq)
        refine ⟨k, _, _, m1, m2, m3, rfl, hrun, hempty, hread, hstep, hoq, rfl, ?_⟩
        rw [finish_output, hoq]
        rfl
  · cases hreply

/-- Settles O53: at once where an output waits, else by the loop decision that the command returned by. -/
theorem runUntilOutputTakesOneEntry : Obligations.RunUntilOutputTakesOneEntry := by
  unfold Obligations.RunUntilOutputTakesOneEntry
  refine ⟨fun s v rest hi hnf hq => ?_, fun s t r hv hq h => ?_⟩
  · have hd : loopDecision .runUntilOutput (accept .runUntilOutput s) = some (.output v) :=
      loopDecision_runUntilOutput_eq_some.2 (.inr (.inl ⟨hnf, v, rest, hq, rfl⟩))
    have hret := returns_at_once (by decide) hi hd
    rw [finish_output, release_accept_of_idle hi, accept_oq, hq] at hret
    exact hret
  · obtain ⟨-, k, -, hd, ht⟩ := (returns_iff (by decide)).1 h
    obtain ⟨hf, rfl⟩ | ⟨-, v, -, -, rfl⟩ | ⟨-, hnone, hip, rfl⟩ := loopDecision_runUntilOutput_eq_some.1 hd
    · exact .inr (.inr (ht ▸ ⟨rfl, hf, rfl⟩))
    · exact .inl (runUntilOutput_output hv hq h)
    · exact .inr (.inl (ht ▸ ⟨rfl, hnone, hip, rfl⟩))

end Sys2Proof.Machine
end

section
/-!
SUPPORT. What the host can write, and what the operations that inspect an idle core return (spec/48_run_protocol.md R210,
R213, R214, R223).
-/

namespace Sys2Proof.Machine

theorem busyOp_snd (op : HostOp) (s : State) : (busyOp op s).2 = s := by
  cases op <;> rfl

/-- R210: a refused operation changes nothing. -/
theorem hostOp_refused {op : HostOp} {s : State} (h : (hostOp op s).1 = .refused) : (hostOp op s).2 = s := by
  by_cases hi : s.Idle
  · rw [hostOp_of_idle hi] at h ⊢
    cases op with
    | pushInput v =>
      simp only [idleOp, pushInput] at h ⊢
      split at h
      · cases h
      · next hn => rw [if_neg hn]
    | forceRb b =>
      simp only [idleOp, forceRb] at h ⊢
      split at h
      · cases h
      · next hn => rw [if_neg hn]
    | popOutput =>
      cases hq : s.oq with
      | nil => simp only [idleOp, popOutput_nil hq]
      | cons v rest => simp [idleOp, popOutput_cons hq] at h
    | issue c => cases h
    | peekQueues | isDone | readStatus | readMem _ | readRegs => rfl
  · rw [hostOp_of_busy hi, busyOp_snd]

/-- R214: a removed front entry is the one returned. -/
theorem hostOp_popOutput {s : State} {v : Int} {rest : List Int} (hi : s.Idle) (hq : s.oq = v :: rest) :
    (hostOp .popOutput s).1 = .popped (some v) := by
  rw [hostOp_of_idle hi, idleOp, popOutput_cons hq]

/-- R223: the addresses `read_mem` reads. -/
theorem readMem_of_valid {s : State} {a : Int} (hw : s.cfg.IsWord a) (h : 0 ≤ a ∨ s.cfg.negAddrPolicy = .map) :
    readMem a s = .word (s.mem.read a) := by
  refine if_pos ⟨hw, fun ⟨hneg, hfault⟩ => ?_⟩
  obtain h0 | hmap := h
  · omega
  · cases hfault.symm.trans hmap

theorem readMem_of_negative {s : State} {a : Int} (h : a < 0) (hp : s.cfg.negAddrPolicy = .fault) :
    readMem a s = .refused :=
  if_neg fun hacc => hacc.2 ⟨h, hp⟩

/-- Settles O57: the host does nothing, or one of four writes; the inspections by `idleOp`. -/
theorem hostWritesOnlyWhatItMay : Obligations.HostWritesOnlyWhatItMay := by
  unfold Obligations.HostWritesOnlyWhatItMay
  refine ⟨fun op s t r h => ?_, fun s hi => ?_⟩
  · have hr : (hostOp op s).1 = r := congrArg Prod.fst h
    have ht : (hostOp op s).2 = t := congrArg Prod.snd h
    have hrefused : r = .refused → t = s := fun hrr => ht ▸ hostOp_refused (hr.trans hrr)
    obtain hw | ⟨-, v, rfl, -, -, hw⟩ | ⟨hi, v, rest, rfl, hq, hw⟩ | ⟨-, b, rfl, -, hw⟩ | ⟨-, c, rfl, hw⟩ :=
      hostOp_cases op s <;> obtain rfl := ht.symm.trans hw
    · exact ⟨rfl, rfl, rfl, rfl, rfl, rfl, rfl, .inl rfl, .inl rfl, .inl rfl, hrefused⟩
    · exact ⟨rfl, rfl, rfl, rfl, rfl, rfl, rfl, .inl rfl, .inr ⟨v, rfl, rfl⟩, .inl rfl, hrefused⟩
    · exact ⟨rfl, rfl, rfl, rfl, rfl, rfl, rfl, .inl rfl, .inl rfl,
        .inr ⟨v, rfl, hq, hr.symm.trans (hostOp_popOutput hi hq)⟩, hrefused⟩
    · exact ⟨rfl, rfl, rfl, rfl, rfl, rfl, rfl, .inr rfl, .inl rfl, .inl rfl, hrefused⟩
    · exact ⟨rfl, rfl, rfl, rfl, rfl, rfl, rfl, .inl rfl, .inl rfl, .inl rfl, hrefused⟩
  · simp only [hostOp_of_idle hi]
    refine ⟨rfl, rfl, rfl, rfl, fun a hw h => ?_, fun a hneg hp => ?_⟩
    · rw [idleOp, readMem_of_valid hw h]
    · rw [idleOp, readMem_of_negative hneg hp]

end Sys2Proof.Machine
end
